-- ==== Sys2Proof/Word.lean ====
section
/-! DEFINITION. The two word types of the block: a byte of the page RAM, of a transfer or of a response, and the
64-bit command word (spec/20_memory.md R43, spec/30_encoding.md R60). -/

namespace Sys2Proof

/-- `u8` (R10): one byte of the page RAM, of a sink transfer, or of a response. -/
abbrev Byte := BitVec 8

/-- One command word, presented on the command port as a single 64-bit unit (R60). -/
abbrev Word := BitVec 64

end Sys2Proof
end

