-- ==== Sys2Proof/Config.lean ====
section
/-! DEFINITION. What a built instance fixes (spec/00_scope.md R7-R9, spec/10_state.md R32), the sink's two answers
(spec/20_memory.md R45), and the model's free values: constants without a body, of which nothing can be proved. -/

namespace Sys2Proof

/-- The display sink's answer to one transfer or pin write (R45, R46): the whole of it, or a refusal. -/
inductive SinkAnswer where
  | ok
  | err
  deriving DecidableEq, Repr, Inhabited

/-- The eleven settings of the initialization table, in the order R163 lists them. -/
inductive InitSetting where
  | clockDivider
  | multiplexRatio
  | chargePump
  | segmentRemap
  | scanDirection
  | contrast
  | precharge
  | vcomLevel
  | normalDisplay
  | scrollDeactivation
  | displayOn
  deriving DecidableEq, Repr

/-- The parameters of a built instance (R7, R9). They are configuration, not state (R32): no step changes them
(log entry 1 says why the record is carried inside `State`). -/
structure Config where
  /-- `WIDTH`, pixels per row. -/
  width          : Nat
  /-- `HEIGHT`, pixel rows. -/
  height         : Nat
  /-- `OPC_COLUMN_RANGE`. -/
  opcColumnRange : Byte
  /-- `OPC_PAGE_RANGE`. -/
  opcPageRange   : Byte
  /-- `OPC_INVERT`. -/
  opcInvert      : Byte
  /-- `OPC_NORMAL`. -/
  opcNormal      : Byte
  /-- `INIT_TABLE`: one command transfer per entry. -/
  initTable      : List (List Byte)
  /-- `RST_ACTIVE_LEVEL`; `true` is level 1. -/
  rstActiveLevel : Bool
  deriving DecidableEq, Repr

namespace Config

/-! ### Free values (no body: nothing constrains them) -/

/-- The sink's answer number `n` where the outside world lists none (R45, D28; log entry 6). -/
opaque freeAnswer : Nat → SinkAnswer

/-- The level of the reset pin after a sequence whose first pin write failed (R162, I16; log entry 7). -/
opaque freeLevel : Nat → Bool

/-- `OPC_COLUMN_RANGE` of the instance `State.reset` stands for: OPEN in the spec (D11, I1; log entry 3). -/
opaque openColumnRange : Byte
/-- `OPC_PAGE_RANGE` of that instance: OPEN (D11, I1; log entry 3). -/
opaque openPageRange : Byte
/-- `OPC_INVERT` of that instance: OPEN (D11, I1; log entry 3). -/
opaque openInvert : Byte
/-- `OPC_NORMAL` of that instance: OPEN (D11, I1; log entry 3). -/
opaque openNormal : Byte
/-- `RST_ACTIVE_LEVEL` of that instance: OPEN (D21, I3; log entry 3). -/
opaque openActiveLevel : Bool
/-- The command byte of each entry of that instance's table: OPEN (D12, I2; log entry 3). -/
opaque openInitCommand : InitSetting → Byte
/-- The argument bytes of each entry but the multiplex ratio's: OPEN (D12, I2; log entry 3). -/
opaque openInitArguments : InitSetting → List Byte

/-! ### The initialization table (R163) -/

/-- The order R163 quotes from the source. -/
def settingOrder : List InitSetting :=
  [.clockDivider, .multiplexRatio, .chargePump, .segmentRemap, .scanDirection, .contrast,
   .precharge, .vcomLevel, .normalDisplay, .scrollDeactivation, .displayOn]

/-- One entry of the table of an instance of height `height`: R163 fixes only the multiplex ratio's argument. -/
def openInitEntry (height : Nat) (e : InitSetting) : List Byte :=
  match e with
  | .multiplexRatio => [openInitCommand .multiplexRatio, BitVec.ofNat 8 (height - 1)]
  | e => openInitCommand e :: openInitArguments e

/-- R163's conforming table, as far as its bytes can say it: `labels` names, for each entry, the setting it makes
(or none, for a further entry). The settings stand in R163's order, and the multiplex-ratio entry carries the
argument `HEIGHT - 1` where that fits a byte. What an entry does to the glass is not the block's (R6; log entry 17). -/
def conforms (c : Config) (labels : List (Option InitSetting)) : Bool :=
  labels.length == c.initTable.length
    && labels.filterMap id == settingOrder
    && (labels.zip c.initTable).all fun e =>
        e.1 != some .multiplexRatio || c.height > 256 || e.2.tail.contains (BitVec.ofNat 8 (c.height - 1))

/-- The instance `State.reset` stands for: the source's example display of 128 x 64 (R7; log entry 2), with every
parameter the spec leaves OPEN left open (log entry 3). -/
def exampleDisplay : Config where
  width := 128
  height := 64
  opcColumnRange := openColumnRange
  opcPageRange := openPageRange
  opcInvert := openInvert
  opcNormal := openNormal
  initTable := settingOrder.map (openInitEntry 64)
  rstActiveLevel := openActiveLevel

end Config

end Sys2Proof
end

