-- ==== Sys2Proof/Syntax.lean ====
section
/-! DEFINITION. The commands: one constructor per row of spec/opcode_table.json (spec/30_encoding.md R63, R69).
Operands are integers, as R62 and R68 give them; which values can be encoded is WellFormed's. -/

namespace Sys2Proof

/-- One command. `v` is the 1-bit operand, `true` for 1. -/
inductive Instr where
  /-- CLEAR (R110). -/
  | clear
  /-- SETPX x, y, v (R80). -/
  | setpx (x y : Int) (v : Bool)
  /-- GETPX x, y (R85). -/
  | getpx (x y : Int)
  /-- SETRECT x, y, w, h, v (R100). -/
  | setrect (x y w h : Int) (v : Bool)
  /-- CHKRECT x, y, w, h, c (R105); `c` is the source's `cell_size`. -/
  | chkrect (x y w h c : Int)
  /-- INVERT v (R120). -/
  | invert (v : Bool)
  /-- FLUSH (R125). -/
  | flush
  /-- FILLRECT x, y, w, h: pseudo-instruction for SETRECT x, y, w, h, 1 (R69). -/
  | fillrect (x y w h : Int)
  /-- CLRRECT x, y, w, h: pseudo-instruction for SETRECT x, y, w, h, 0 (R69). -/
  | clrrect (x y w h : Int)
  deriving DecidableEq, Repr

end Sys2Proof
end

