-- ==== Sys2Proof/Machine/State.lean ====
section
/-! DEFINITION. The block's state (spec/10_state.md R20-R33), with the interfaces the outside world acts through
(command port, response port, display sink, reset input), held as plain data. -/

namespace Sys2Proof.Machine

/-- The page RAM (R20): address and byte pairs, addresses strictly rising, no entry equal to what an unlisted address
reads as, `0x00` (the reset contents, R33). -/
abbrev Memory := List Host.Cell

/-- A transfer's kind (R45). -/
inductive TransferKind where
  | cmd
  | data
  deriving DecidableEq, Repr

/-- What the block did at the display's interfaces: one `Emit` (R45) or one `SetPin` (R46), with the answer it got. -/
inductive SinkEvent where
  | transfer (kind : TransferKind) (bytes : List Byte) (answer : SinkAnswer)
  | pin (level : Bool) (answer : SinkAnswer)
  deriving DecidableEq, Repr

/-- Where the reset sequence of R160 stands: the action it does next. -/
inductive SeqPoint where
  /-- `SetPin(RST_ACTIVE_LEVEL)`. -/
  | assertPin
  /-- `Wait(1 ms)`. -/
  | waitAsserted
  /-- `SetPin(1 - RST_ACTIVE_LEVEL)`. -/
  | deassertPin
  /-- `Wait(10 ms)`. -/
  | waitDeasserted
  /-- `Emit(CMD, INIT_TABLE[k])`, or `PHASE <- READY` past the table's end. -/
  | entry (k : Nat)
  deriving DecidableEq, Repr

/-- `PHASE` (R24). `RESET` carries where the sequence stands. -/
inductive Phase where
  | reset (p : SeqPoint)
  | ready
  | failed
  deriving DecidableEq, Repr

/-- What the outside world does in one step (log entry 5). -/
inductive Event where
  /-- Nothing: the block and the response handshake go on. -/
  | run
  /-- The host puts a word at the end of its command stream (R27). -/
  | present (cmd : Word)
  /-- The host drives its ready line on the response port (D2). -/
  | setReady (level : Bool)
  /-- The reset input is asserted (R160). -/
  | assertReset
  /-- The reset input is released (R160). -/
  | releaseReset
  /-- The block accepts the command at the port, and the reset input is asserted after `done` of its effects (R164). -/
  | resetDuring (done : Nat)
  deriving DecidableEq, Repr

/-- One effect of a command (R164, R48): a page RAM write, a write of `INV`, or a transfer. -/
inductive Effect where
  /-- The page RAM becomes `m`: all the writes of a drawing command that runs to its end (log entry 10). -/
  | store (m : Memory)
  /-- `WritePixel(px, py, v)`: one write of a drawing command (R80, R100, R105). -/
  | writePixel (px py : Nat) (v : Bool)
  /-- `FB[i] <- v`: one write of CLEAR (R110). -/
  | writeByte (i : Nat) (v : Byte)
  /-- `INV <- v`. -/
  | setInv (v : Bool)
  /-- `Emit(kind, bytes)`. -/
  | emit (kind : TransferKind) (bytes : List Byte)
  deriving DecidableEq, Repr

/-- The block and its interfaces. The first group is the spec's state, the others are what the interfaces hold. -/
structure State where
  /-- The instance's parameters (R32): no step changes them (log entry 1). -/
  cfg       : Config
  /-- `FB`, the page RAM (R20). -/
  fb        : Memory
  /-- `INV` (R23). -/
  inv       : Bool
  /-- `PHASE` (R24). -/
  phase     : Phase
  /-- `RST_OUT` (R25). -/
  rstOut    : Bool
  /-- `BUSY` (R30). -/
  busy      : Bool
  /-- `RESP`, the pending response (R31). -/
  resp      : Option Byte
  /-- The position in the host's command stream (R27). -/
  pos       : Nat
  /-- A reset has been released at least once; before that no state has a value (R33, I10). -/
  started   : Bool
  /-- The level of the reset input (R160). -/
  resetIn   : Bool
  /-- The host's commands not yet accepted, the one held at the port first (R27, R170). -/
  port      : List Word
  /-- The host's ready line on the response port (D2, R31). -/
  respReady : Bool
  /-- What the outside world does in the next steps; nothing after the last (log entry 5). -/
  agenda    : List Event
  /-- The sink's next answers, as the outside world has fixed them (R45, R46, D28; log entry 6). -/
  answers   : List SinkAnswer
  /-- How many free values have been drawn: the model's own counter (log entries 6, 7). -/
  draws     : Nat
  /-- Every transfer and pin write offered so far, the oldest first. -/
  sinkLog   : List SinkEvent
  /-- Every response the host has taken so far, the oldest first. -/
  taken     : List Byte
  deriving DecidableEq, Repr

/-- Why the machine stops. -/
inductive Fault where
  /-- Raised by `step` before the first reset: "the block has no step before a reset" (R33, I10). Safe: it stops
  where the spec gives no state. -/
  | neverReset
  deriving DecidableEq, Repr

/-- Why an instruction or a state has no meaning. -/
inductive Refusal where
  /-- An instruction the model gives no meaning: no arm of `exec` raises it. Safe: it stops. -/
  | notModelled (mnemonic : String)
  /-- Raised by `step` where the parameters lie outside R8: "not a buildable instance: a model must refuse it".
  Safe: there is no such block. -/
  | illegalConfiguration
  deriving DecidableEq, Repr

/-- What the next step is (R145, R160, R170): the one classification `step` dispatches on. -/
inductive Action where
  /-- The parameters are illegal (R8). -/
  | unbuildable
  /-- No reset has run (I10). -/
  | stuck
  /-- The outside world moves. -/
  | outside (e : Event)
  /-- Reset is asserted, or the block waits for the host. -/
  | idle
  /-- The reset sequence goes on (R160). -/
  | sequence (p : SeqPoint)
  /-- The host takes the pending response (R31). -/
  | take (r : Byte)
  /-- The command `cmd` is accepted, and reset is asserted after `done` of its effects (R164). -/
  | abandon (done : Nat) (cmd : Word)
  /-- The command `cmd` is accepted (R170). -/
  | command (cmd : Word)
  deriving DecidableEq, Repr

/-- What an accepted word comes to (R145). -/
inductive Verdict where
  | notReady
  | illegal
  | run (i : Instr)
  deriving DecidableEq, Repr

/-- The reset state of R33 for an instance `c`: what a reset sequence whose pin writes and transfers were all accepted
leaves. Nothing waits at the interfaces, and the host's ready line is up (log entry 19). -/
def State.resetOf (c : Config) : State where
  cfg := c
  fb := []
  inv := false
  phase := .ready
  rstOut := !c.rstActiveLevel
  busy := false
  resp := none
  pos := 0
  started := true
  resetIn := false
  port := []
  respReady := true
  agenda := []
  answers := []
  draws := 0
  sinkLog := []
  taken := []

/-- The machine right after reset (R33), for the instance of log entries 2 and 3. -/
def State.reset : State := State.resetOf Config.exampleDisplay

end Sys2Proof.Machine
end

