-- ==== Sys2Proof/Machine/Flags.lean ====
section
/-! DEFINITION. The block has no flags and no condition codes (spec/10_state.md R28): "the outcome of a command is
reported only in its response". This file holds the response byte (spec/60_exceptions.md R140). -/

namespace Sys2Proof.Machine

/-- The status of a response (R140). -/
inductive Status where
  | ok
  | illegalCommand
  | sinkError
  | notReady
  deriving DecidableEq, Repr

/-- The STATUS field's number (R140). -/
def statusCode (st : Status) : BitVec 4 :=
  match st with
  | .ok => 0#4
  | .illegalCommand => 1#4
  | .sinkError => 2#4
  | .notReady => 3#4

/-- The response byte: STATUS in bits 7:4, zeros in bits 3:1, PIX in bit 0 (R140). -/
def responseByte (st : Status) (pix : Bool) : Byte := statusCode st ++ 0#3 ++ BitVec.ofBool pix

end Sys2Proof.Machine
end

