-- ==== Sys2Proof/Machine/Operands.lean ====
section
/-! DEFINITION. The arithmetic of coordinates and parameters (spec/00_scope.md R7, R8, R11, R13). -/

namespace Sys2Proof.Machine

/-- `NPAGES = HEIGHT / 8` (R7). -/
def npages (c : Config) : Nat := c.height / 8

/-- `NBYTES = NPAGES * WIDTH` (R7). -/
def nbytes (c : Config) : Nat := npages c * c.width

/-- The legal parameters (R8), and an initialization table of non-empty entries (R163). -/
def legal (c : Config) : Bool :=
  decide (1 ≤ c.width) && decide (c.width ≤ 256) && decide (8 ≤ c.height) && decide (c.height ≤ 2040)
    && decide (c.height % 8 = 0) && c.initTable.all fun e => !e.isEmpty

/-- `clamp(v, lo, hi) = min(max(v, lo), hi)` (R11). -/
def clamp (v lo hi : Int) : Int := min (max v lo) hi

/-- `cx(x) = clamp(x, 0, WIDTH - 1)` (R13). -/
def cx (c : Config) (x : Int) : Nat := (clamp x 0 (c.width - 1)).toNat

/-- `cy(y) = clamp(y, 0, HEIGHT - 1)` (R13). -/
def cy (c : Config) (y : Int) : Nat := (clamp y 0 (c.height - 1)).toNat

/-- `byte_index(x, y) = x + (y / 8) * WIDTH` (R13). -/
def byteIndex (c : Config) (px py : Nat) : Nat := px + py / 8 * c.width

/-- `bit_index(y) = y & 7` (R13). -/
def bitIndex (py : Nat) : Nat := py &&& 7

/-- The column of byte `i`: `i mod WIDTH` (R22, R49). -/
def columnOf (c : Config) (i : Nat) : Nat := i % c.width

/-- The page of byte `i`: `i / WIDTH` (R22, R49). -/
def pageOf (c : Config) (i : Nat) : Nat := i / c.width

end Sys2Proof.Machine
end

