-- ==== Sys2Proof/Machine/Ops.lean ====
section
/-! DEFINITION. The named operations every meaning is written over: the page RAM, the response, the error, the sink's
answer, the two output primitives, and the running of a command's effects. -/

namespace Sys2Proof.Machine

/-! ### The page RAM (R20, R40, R44) -/

/-- `FB[a]` (R12). An unlisted address reads as its reset contents, `0x00` (R33; log entry 8). -/
def Memory.read (m : Memory) (a : Nat) : Byte :=
  match m with
  | [] => 0#8
  | (b, v) :: rest => if a = b then v else Memory.read rest a

/-- An entry in front of a memory, unless it says what an unlisted address says. -/
def Memory.entry (a : Nat) (v : Byte) (m : Memory) : Memory := if v = 0#8 then m else (a, v) :: m

/-- `FB[a] <- v` (R12), keeping the canonical form. -/
def Memory.write (m : Memory) (a : Nat) (v : Byte) : Memory :=
  match m with
  | [] => Memory.entry a v []
  | (b, u) :: rest =>
    if a < b then Memory.entry a v ((b, u) :: rest)
    else if a = b then Memory.entry a v rest
    else (b, u) :: Memory.write rest a v

/-- `for i from 0 to n - 1: FB[i] <- f i FB[i]`. -/
def Memory.update (n : Nat) (f : Nat → Byte → Byte) (m : Memory) : Memory :=
  ((List.range n).filterMap fun i => if f i (m.read i) = 0#8 then none else some (i, f i (m.read i)))
    ++ m.filter fun c => decide (n ≤ c.1)

/-- Every listed address is at least `lo`, addresses rise strictly, and no entry is `0x00`. -/
def Memory.wfFrom (lo : Nat) (m : Memory) : Bool :=
  match m with
  | [] => true
  | (a, v) :: rest => decide (lo ≤ a) && decide (v ≠ 0#8) && Memory.wfFrom (a + 1) rest

/-- The canonical form. -/
def Memory.wf (m : Memory) : Bool := Memory.wfFrom 0 m

/-- Every listed address lies in the page RAM, `0 .. n - 1` (R40). -/
def Memory.within (n : Nat) (m : Memory) : Bool := m.all fun c => decide (c.1 < n)

/-! ### Pixels (R21, R22, R44) -/

/-- Bit `k` of a byte set or cleared, no other bit touched: `b | (1 << k)` or `b & (0xFF - (1 << k))` (R80). -/
def setBit (b : Byte) (k : Nat) (v : Bool) : Byte :=
  if v then b ||| (1#8 <<< k) else b &&& (0xFF#8 - (1#8 <<< k))

/-- Pixel `(px, py)`: `(FB[byte_index] >> bit_index) & 1` (R21, R85). -/
def pixel (c : Config) (m : Memory) (px py : Nat) : Bool := (m.read (byteIndex c px py)).getLsbD (bitIndex py)

/-- `WritePixel(px, py, val)` (spec/41_region.md) and the write of SETPX (R80): a read-modify-write of one byte. -/
def writePixel (c : Config) (px py : Nat) (v : Bool) (m : Memory) : Memory :=
  m.write (byteIndex c px py) (setBit (m.read (byteIndex c px py)) (bitIndex py) v)

/-- Bit `k` of a byte set to the value painted there, if any. -/
def paintBit (b : Byte) (k : Nat) (p : Option Bool) : Byte :=
  match p with
  | some v => setBit b k v
  | none => b

/-- Byte `i` with each of its eight pixels repainted: row `8p + k` is bit `k` (R22). `paint px py` is the value a
command writes to a pixel, or none. -/
def paintByte (c : Config) (paint : Nat → Nat → Option Bool) (i : Nat) (b : Byte) : Byte :=
  (List.range 8).foldl (fun acc k => paintBit acc k (paint (columnOf c i) (8 * pageOf c i + k))) b

/-- Every pixel `(px, py)` of the page RAM for which `paint px py` is a value gets it, and no other changes. -/
def paintAll (c : Config) (paint : Nat → Nat → Option Bool) (m : Memory) : Memory :=
  m.update (nbytes c) (paintByte c paint)

/-! ### Responses and errors (R140, R12) -/

/-- `respond(code, bit)`: the response is held in `RESP` until the host takes it. -/
def State.respond (s : State) (st : Status) (pix : Bool) : State := { s with resp := some (responseByte st pix) }

/-- `raise E` (R12, R143): the whole of taking an error in this block. There is no trap: nothing is saved, no mode
changes, nothing is masked, and no return exists; the response `code(E)` with bit 0 is all that happens. -/
def State.raiseError (s : State) (st : Status) : State := s.respond st false

/-! ### The sink (R45, R46, D28) -/

/-- The sink's answer to the next transfer or pin write: the outside world's, or a free value where it lists none. -/
def State.nextAnswer (s : State) : SinkAnswer := s.answers.headD (Config.freeAnswer s.draws)

/-- `Emit(kind, bytes)` (R45): the transfer is offered, and the answer `nextAnswer` used up. -/
def State.emit (s : State) (kind : TransferKind) (bytes : List Byte) : State :=
  { s with
    answers := s.answers.tail
    draws := s.draws + 1
    sinkLog := s.sinkLog ++ [.transfer kind bytes s.nextAnswer] }

/-- `SetPin(level)` (R46): the write is offered, and the answer `nextAnswer` used up. What it does to `RST_OUT` is the
reset sequence's (R162). -/
def State.offerPin (s : State) (level : Bool) : State :=
  { s with
    answers := s.answers.tail
    draws := s.draws + 1
    sinkLog := s.sinkLog ++ [.pin level s.nextAnswer] }

/-! ### Commands as effects (R48, R145, R164) -/

/-- One effect done. -/
def State.applyEffect (s : State) (e : Effect) : State :=
  match e with
  | .store m => { s with fb := m }
  | .writePixel px py v => { s with fb := writePixel s.cfg px py v s.fb }
  | .writeByte i v => { s with fb := s.fb.write i v }
  | .setInv v => { s with inv := v }
  | .emit kind bytes => s.emit kind bytes

/-- The answer an effect gets: only a transfer can be refused. -/
def State.effectAnswer (s : State) (e : Effect) : SinkAnswer :=
  match e with
  | .store _ => .ok
  | .writePixel _ _ _ => .ok
  | .writeByte _ _ => .ok
  | .setInv _ => .ok
  | .emit _ _ => s.nextAnswer

/-- The effects of a command in order, up to and with the first transfer the sink refuses (R127). -/
def State.runEffects (s : State) (es : List Effect) : State × SinkAnswer :=
  match es with
  | [] => (s, .ok)
  | e :: rest =>
    match s.effectAnswer e with
    | .ok => (s.applyEffect e).runEffects rest
    | .err => (s.applyEffect e, .err)

/-- A command run to its response: `OK` with bit `pix`, or `SINK_ERROR` at a refused transfer (R140, R144). -/
def State.complete (s : State) (es : List Effect) (pix : Bool) : State :=
  match (s.runEffects es).2 with
  | .ok => (s.runEffects es).1.respond .ok pix
  | .err => (s.runEffects es).1.raiseError .sinkError

/-- An accepted command, by the phase (R24): run in `READY`, answered `NOT_READY` with no effect in `FAILED` (R142).
In `RESET` the port accepts nothing (R170), and a command has no effect (log entry 18). -/
def State.perform (s : State) (es : List Effect) (pix : Bool) : State :=
  match s.phase with
  | .reset _ => s
  | .ready => s.complete es pix
  | .failed => s.raiseError .notReady

/-- Every meaning's last word: a command always ends in a next state. -/
def execute (es : List Effect) (pix : Bool) (s : State) : Host.Outcome State Fault Refusal := .next (s.perform es pix)

end Sys2Proof.Machine
end

