-- ==== Sys2Proof/Machine/Display.lean ====
section
/-! DEFINITION. The display-control commands INVERT and FLUSH (spec/42_display_control.md). -/

namespace Sys2Proof.Machine

/-- `OPC_INVERT if v = 1 else OPC_NORMAL` (R120). -/
def invertOpcode (c : Config) (v : Bool) : Byte := if v then c.opcInvert else c.opcNormal

/-- INVERT's two effects (R120, R121): `INV` first, then the one-byte command transfer. -/
def invertEffects (v : Bool) (s : State) : List Effect := [.setInv v, .emit .cmd [invertOpcode s.cfg v]]

/-- INVERT v (R120, R121). -/
def execInvert (v : Bool) (s : State) : Host.Outcome State Fault Refusal := execute (invertEffects v s) false s

/-- `[OPC_COLUMN_RANGE, 0x00, WIDTH - 1]` (R125). -/
def columnWindow (c : Config) : List Byte := [c.opcColumnRange, 0x00#8, BitVec.ofNat 8 (c.width - 1)]

/-- `[OPC_PAGE_RANGE, 0x00, NPAGES - 1]` (R125). -/
def pageWindow (c : Config) : List Byte := [c.opcPageRange, 0x00#8, BitVec.ofNat 8 (npages c - 1)]

/-- `[FB[0], FB[1], ..., FB[NBYTES - 1]]` (R125, R42). -/
def pageBytes (c : Config) (m : Memory) : List Byte := (List.range (nbytes c)).map m.read

/-- FLUSH's three effects (R125, R126). -/
def flushEffects (s : State) : List Effect :=
  [.emit .cmd (columnWindow s.cfg), .emit .cmd (pageWindow s.cfg), .emit .data (pageBytes s.cfg s.fb)]

/-- FLUSH (R125-R128). -/
def execFlush (s : State) : Host.Outcome State Fault Refusal := execute (flushEffects s) false s

end Sys2Proof.Machine
end

