-- ==== Sys2Proof/Machine/Pixel.lean ====
section
/-! DEFINITION. The pixel commands SETPX and GETPX (spec/40_pixel.md). -/

namespace Sys2Proof.Machine

/-- SETPX's one effect (R80): the pixel `(cx(x), cy(y))` becomes `v`. -/
def setpxEffects (x y : Int) (v : Bool) (s : State) : List Effect :=
  [.store (writePixel s.cfg (cx s.cfg x) (cy s.cfg y) v s.fb)]

/-- SETPX x, y, v (R80, R81). -/
def execSetpx (x y : Int) (v : Bool) (s : State) : Host.Outcome State Fault Refusal :=
  execute (setpxEffects x y v s) false s

/-- GETPX has no effect but its response (R47). -/
def getpxEffects (_x _y : Int) (_s : State) : List Effect := []

/-- GETPX x, y (R85): responds `OK` with the pixel `(cx(x), cy(y))`. -/
def execGetpx (x y : Int) (s : State) : Host.Outcome State Fault Refusal :=
  execute (getpxEffects x y s) (pixel s.cfg s.fb (cx s.cfg x) (cy s.cfg y)) s

end Sys2Proof.Machine
end

