-- ==== Sys2Proof/Machine/Region.lean ====
section
/-! DEFINITION. The region commands SETRECT (with FILLRECT and CLRRECT), CHKRECT and CLEAR (spec/41_region.md).
SETRECT is written in its closed form (R101), CHKRECT per pixel; the spec's pseudocode, write by write, stands in
Machine/Loops.lean, and the obligations state that the two agree (log entry 13). -/

namespace Sys2Proof.Machine

/-- What SETRECT writes to pixel `(px, py)` (R101): `v` inside the clamped rectangle, nothing when `w` or `h` is
not positive (R102). -/
def setrectPaint (c : Config) (x y w h : Int) (v : Bool) (px py : Nat) : Option Bool :=
  if 1 ≤ w ∧ 1 ≤ h ∧ cx c x ≤ px ∧ px ≤ cx c (x + w - 1) ∧ cy c y ≤ py ∧ py ≤ cy c (y + h - 1) then some v
  else none

/-- SETRECT's one effect. -/
def setrectEffects (x y w h : Int) (v : Bool) (s : State) : List Effect :=
  [.store (paintAll s.cfg (setrectPaint s.cfg x y w h v) s.fb)]

/-- SETRECT x, y, w, h, v (R100-R102). -/
def execSetrect (x y w h : Int) (v : Bool) (s : State) : Host.Outcome State Fault Refusal :=
  execute (setrectEffects x y w h v s) false s

/-- FILLRECT x, y, w, h (R69): SETRECT x, y, w, h, 1. -/
def execFillrect (x y w h : Int) (s : State) : Host.Outcome State Fault Refusal :=
  execute (setrectEffects x y w h true s) false s

/-- CLRRECT x, y, w, h (R69): SETRECT x, y, w, h, 0. -/
def execClrrect (x y w h : Int) (s : State) : Host.Outcome State Fault Refusal :=
  execute (setrectEffects x y w h false s) false s

/-- "`cell_size <= 0` is coerced to 1" (R105). -/
def cellSize (c : Int) : Int := if 1 ≤ c then c else 1

/-- `x0 = max(x, 0)` (R105), and `y0` alike. -/
def clipLow (v : Int) : Int := max v 0

/-- `x1 = min(x + w, WIDTH)` (R105), and `y1` alike. -/
def clipHigh (v size bound : Int) : Int := min (v + size) bound

/-- The value of the pixel at distance `dx`, `dy` from the clipped corner: set where `kx + ky` is even (R105, R106). -/
def checkerValue (size dx dy : Int) : Bool := decide ((dx / size + dy / size) % 2 = 0)

/-- What CHKRECT writes to pixel `(px, py)` (R105): the checkerboard inside the clipped region, nothing outside. -/
def chkrectPaint (c : Config) (x y w h cell : Int) (px py : Nat) : Option Bool :=
  if clipLow x ≤ px ∧ px < clipHigh x w c.width ∧ clipLow y ≤ py ∧ py < clipHigh y h c.height then
    some (checkerValue (cellSize cell) (px - clipLow x) (py - clipLow y))
  else none

/-- CHKRECT's one effect. -/
def chkrectEffects (x y w h cell : Int) (s : State) : List Effect :=
  [.store (paintAll s.cfg (chkrectPaint s.cfg x y w h cell) s.fb)]

/-- CHKRECT x, y, w, h, c (R105, R106). -/
def execChkrect (x y w h cell : Int) (s : State) : Host.Outcome State Fault Refusal :=
  execute (chkrectEffects x y w h cell s) false s

/-- CLEAR's one effect (R110): every byte of the page RAM becomes `0x00`. -/
def clearEffects (s : State) : List Effect := [.store (s.fb.update (nbytes s.cfg) fun _ _ => 0#8)]

/-- CLEAR (R110). -/
def execClear (s : State) : Host.Outcome State Fault Refusal := execute (clearEffects s) false s

end Sys2Proof.Machine
end

