-- ==== Sys2Proof/Machine/Dispatch.lean ====
section
/-! DEFINITION. The execution of one accepted command: one arm per constructor of Instr. -/

namespace Sys2Proof.Machine

def exec (i : Instr) (s : State) : Host.Outcome State Fault Refusal :=
  match i with
  | .clear => Sys2Proof.Machine.execClear s
  | .setpx x y v => Sys2Proof.Machine.execSetpx x y v s
  | .getpx x y => Sys2Proof.Machine.execGetpx x y s
  | .setrect x y w h v => Sys2Proof.Machine.execSetrect x y w h v s
  | .chkrect x y w h c => Sys2Proof.Machine.execChkrect x y w h c s
  | .invert v => Sys2Proof.Machine.execInvert v s
  | .flush => Sys2Proof.Machine.execFlush s
  | .fillrect x y w h => Sys2Proof.Machine.execFillrect x y w h s
  | .clrrect x y w h => Sys2Proof.Machine.execClrrect x y w h s

end Sys2Proof.Machine
end

