-- ==== Sys2Proof/WellFormed.lean ====
section
/-! DEFINITION. Which commands have an encoding: "An operand outside its range has no encoding and an assembler must
reject it" (spec/30_encoding.md R68; spec/93_implementation_defined.md I13). -/

namespace Sys2Proof

/-- A signed 12-bit operand: `-2048 .. 2047` (R62, R68). -/
def inS12 (v : Int) : Bool := decide (-2048 ≤ v) && decide (v ≤ 2047)

/-- A signed 8-bit operand: `-128 .. 127` (R62, R68). -/
def inS8 (v : Int) : Bool := decide (-128 ≤ v) && decide (v ≤ 127)

/-- Every operand lies in the range R68's table gives it. -/
def Instr.wf (i : Instr) : Bool :=
  match i with
  | .clear => true
  | .setpx x y _ => inS12 x && inS12 y
  | .getpx x y => inS12 x && inS12 y
  | .setrect x y w h _ => inS12 x && inS12 y && inS12 w && inS12 h
  | .chkrect x y w h c => inS12 x && inS12 y && inS12 w && inS12 h && inS8 c
  | .invert _ => true
  | .flush => true
  | .fillrect x y w h => inS12 x && inS12 y && inS12 w && inS12 h
  | .clrrect x y w h => inS12 x && inS12 y && inS12 w && inS12 h

end Sys2Proof
end

