-- ==== Sys2Proof/Decode.lean ====
section
/-! DEFINITION. The decoder, by R64's match and mask table, and the encoder, by R68's formula
(spec/30_encoding.md R60-R69). The decoder is total: a word that matches no row is rejected by name. -/

namespace Sys2Proof

/-! ### Fields (R60, R61) -/

/-- `OP`, bits 63:60. -/
def fieldOP (cmd : Word) : BitVec 4 := cmd.extractLsb' 60 4
/-- `RSV`, bits 59:57. -/
def fieldRSV (cmd : Word) : BitVec 3 := cmd.extractLsb' 57 3
/-- `V`, bit 56. -/
def fieldV (cmd : Word) : Bool := cmd.getLsbD 56
/-- `C`, bits 55:48. -/
def fieldC (cmd : Word) : BitVec 8 := cmd.extractLsb' 48 8
/-- `X`, bits 47:36. -/
def fieldX (cmd : Word) : BitVec 12 := cmd.extractLsb' 36 12
/-- `Y`, bits 35:24. -/
def fieldY (cmd : Word) : BitVec 12 := cmd.extractLsb' 24 12
/-- `W`, bits 23:12. -/
def fieldW (cmd : Word) : BitVec 12 := cmd.extractLsb' 12 12
/-- `H`, bits 11:0. -/
def fieldH (cmd : Word) : BitVec 12 := cmd.extractLsb' 0 12

/-! ### Operand assembly (R62) -/

/-- `v = cmd[56]`. -/
def operandV (cmd : Word) : Bool := fieldV cmd
/-- `c = sext_8(cmd[55:48])`. -/
def operandC (cmd : Word) : Int := (fieldC cmd).toInt
/-- `x = sext_12(cmd[47:36])`. -/
def operandX (cmd : Word) : Int := (fieldX cmd).toInt
/-- `y = sext_12(cmd[35:24])`. -/
def operandY (cmd : Word) : Int := (fieldY cmd).toInt
/-- `w = sext_12(cmd[23:12])`. -/
def operandW (cmd : Word) : Int := (fieldW cmd).toInt
/-- `h = sext_12(cmd[11:0])`. -/
def operandH (cmd : Word) : Int := (fieldH cmd).toInt

/-! ### The opcode map (R63, R64) -/

/-- One row of R64's table. -/
structure OpcodeRow where
  value : Word
  mask  : Word
  deriving DecidableEq, Repr

/-- `(cmd & mask) = match` (R64). -/
def OpcodeRow.hits (r : OpcodeRow) (cmd : Word) : Bool := cmd &&& r.mask == r.value

/-- CLEAR's row of R64. -/
def rowClear : OpcodeRow := ⟨0x1000000000000000#64, 0xFFFFFFFFFFFFFFFF#64⟩
/-- SETPX's row of R64. -/
def rowSetpx : OpcodeRow := ⟨0x2000000000000000#64, 0xFEFF000000FFFFFF#64⟩
/-- GETPX's row of R64. -/
def rowGetpx : OpcodeRow := ⟨0x3000000000000000#64, 0xFFFF000000FFFFFF#64⟩
/-- SETRECT's row of R64. -/
def rowSetrect : OpcodeRow := ⟨0x4000000000000000#64, 0xFEFF000000000000#64⟩
/-- CHKRECT's row of R64. -/
def rowChkrect : OpcodeRow := ⟨0x5000000000000000#64, 0xFF00000000000000#64⟩
/-- INVERT's row of R64. -/
def rowInvert : OpcodeRow := ⟨0x6000000000000000#64, 0xFEFFFFFFFFFFFFFF#64⟩
/-- FLUSH's row of R64. -/
def rowFlush : OpcodeRow := ⟨0x7000000000000000#64, 0xFFFFFFFFFFFFFFFF#64⟩

/-- R64's table. -/
def opcodeRows : List OpcodeRow :=
  [rowClear, rowSetpx, rowGetpx, rowSetrect, rowChkrect, rowInvert, rowFlush]

/-- Why a word decodes to no command (R64, R65). The block itself tells the two apart nowhere (R141). -/
inductive DecodeReject where
  /-- `OP` is 0x0 or 0x8 .. 0xF (R65). -/
  | reservedOpcode (op : BitVec 4)
  /-- `OP` is assigned, and a field it requires to be zero is not (R63, R64). -/
  | nonzeroReservedField (op : BitVec 4)
  deriving DecidableEq, Repr

/-- What a word decodes to: a command, or a rejection by name. -/
inductive Decoded where
  | ok (i : Instr)
  | error (why : DecodeReject)
  deriving DecidableEq, Repr

/-- The command, where there is one. -/
def Decoded.command? (d : Decoded) : Option Instr :=
  match d with
  | .ok i => some i
  | .error _ => none

/-- The reason a word that hits no row is rejected with. -/
def rejectReason (cmd : Word) : DecodeReject :=
  if fieldOP cmd = 0#4 ∨ 8#4 ≤ fieldOP cmd then .reservedOpcode (fieldOP cmd)
  else .nonzeroReservedField (fieldOP cmd)

/-- Decoding (R64): the command of the one row the word hits, with the operands of R62. -/
def decode (cmd : Word) : Decoded :=
  if rowClear.hits cmd then .ok .clear
  else if rowSetpx.hits cmd then .ok (.setpx (operandX cmd) (operandY cmd) (operandV cmd))
  else if rowGetpx.hits cmd then .ok (.getpx (operandX cmd) (operandY cmd))
  else if rowSetrect.hits cmd then
    .ok (.setrect (operandX cmd) (operandY cmd) (operandW cmd) (operandH cmd) (operandV cmd))
  else if rowChkrect.hits cmd then
    .ok (.chkrect (operandX cmd) (operandY cmd) (operandW cmd) (operandH cmd) (operandC cmd))
  else if rowInvert.hits cmd then .ok (.invert (operandV cmd))
  else if rowFlush.hits cmd then .ok .flush
  else .error (rejectReason cmd)

/-- The host's question about one row of the opcode table: the command decoded from the one 64-bit word whose bits
are `w`. The port has no byte order (R43), so the word is laid out as it stands. -/
def decodeTableWord (nbits w : Nat) : Option Instr :=
  (decode (BitVec.ofNat 64 (w % 2 ^ nbits))).command?

/-! ### The encoder (R68, R69) -/

/-- The command a pseudo-instruction expands to (R69); a core command is itself. -/
def Instr.expand (i : Instr) : Instr :=
  match i with
  | .clear => .clear
  | .setpx x y v => .setpx x y v
  | .getpx x y => .getpx x y
  | .setrect x y w h v => .setrect x y w h v
  | .chkrect x y w h c => .chkrect x y w h c
  | .invert v => .invert v
  | .flush => .flush
  | .fillrect x y w h => .setrect x y w h true
  | .clrrect x y w h => .setrect x y w h false

/-- `OP` of a command (R63, R69). -/
def Instr.opcode (i : Instr) : BitVec 4 :=
  match i with
  | .clear => 0x1#4
  | .setpx _ _ _ => 0x2#4
  | .getpx _ _ => 0x3#4
  | .setrect _ _ _ _ _ => 0x4#4
  | .chkrect _ _ _ _ _ => 0x5#4
  | .invert _ => 0x6#4
  | .flush => 0x7#4
  | .fillrect _ _ _ _ => 0x4#4
  | .clrrect _ _ _ _ => 0x4#4

/-- The assembled word of R68: the eight fields of R60 side by side, `RSV` zero, each operand modulo its width. -/
def assemble (op : BitVec 4) (v : Bool) (c x y w h : Int) : Word :=
  op ++ 0#3 ++ BitVec.ofBool v ++ BitVec.ofInt 8 c
    ++ BitVec.ofInt 12 x ++ BitVec.ofInt 12 y ++ BitVec.ofInt 12 w ++ BitVec.ofInt 12 h

/-- The word of a command, "with every operand the mnemonic does not take equal to 0" (R68). -/
def encode (i : Instr) : Word :=
  match i with
  | .clear => assemble 0x1#4 false 0 0 0 0 0
  | .setpx x y v => assemble 0x2#4 v 0 x y 0 0
  | .getpx x y => assemble 0x3#4 false 0 x y 0 0
  | .setrect x y w h v => assemble 0x4#4 v 0 x y w h
  | .chkrect x y w h c => assemble 0x5#4 false c x y w h
  | .invert v => assemble 0x6#4 v 0 0 0 0 0
  | .flush => assemble 0x7#4 false 0 0 0 0 0
  | .fillrect x y w h => assemble 0x4#4 true 0 x y w h
  | .clrrect x y w h => assemble 0x4#4 false 0 x y w h

/-- What an assembler answers: the word of a command that has one, none for an operand out of range (R68). -/
def assembleChecked (i : Instr) : Option Word := if i.wf then some (encode i) else none

end Sys2Proof
end

