-- ==== Sys2Proof/Machine/Loops.lean ====
section
/-! DEFINITION. The region commands one page RAM write at a time, as the spec's pseudocode has them (R100, R105, R110):
first as the nested loops over a page RAM, then as the list of the writes, which a reset can cut between any two (R164).
A command that runs to its end does them as one (Machine/Region.lean); the obligations state that this is the same page
RAM (R56, R101; log entries 10, 13). -/

namespace Sys2Proof.Machine

/-- `for k from lo to lo + n - 1: m <- body k m`, no iteration where `n <= 0`. -/
def loop (lo n : Int) (body : Int → Memory → Memory) (m : Memory) : Memory :=
  (List.range n.toNat).foldl (fun acc (k : Nat) => body (lo + k) acc) m

/-- R100's pseudocode. -/
def setrectLoop (c : Config) (x y w h : Int) (v : Bool) (m : Memory) : Memory :=
  loop y h (fun j => loop x w fun i => writePixel c (cx c i) (cy c j) v) m

/-- R105's pseudocode. -/
def chkrectLoop (c : Config) (x y w h cell : Int) (m : Memory) : Memory :=
  loop (clipLow y) (clipHigh y h c.height - clipLow y)
    (fun py => loop (clipLow x) (clipHigh x w c.width - clipLow x)
      fun px => writePixel c px.toNat py.toNat
        (checkerValue (cellSize cell) (px - clipLow x) (py - clipLow y))) m

/-- The effects of `for k from lo to lo + n - 1`, each iteration's after the one before. -/
def loopEffects (lo n : Int) (body : Int → List Effect) : List Effect :=
  (List.range n.toNat).flatMap fun (k : Nat) => body (lo + k)

/-- SETRECT's pixel writes, in the order of R100's pseudocode. -/
def setrectWrites (c : Config) (x y w h : Int) (v : Bool) : List Effect :=
  loopEffects y h fun j => loopEffects x w fun i => [.writePixel (cx c i) (cy c j) v]

/-- CHKRECT's pixel writes, in the order of R105's pseudocode. -/
def chkrectWrites (c : Config) (x y w h cell : Int) : List Effect :=
  loopEffects (clipLow y) (clipHigh y h c.height - clipLow y) fun py =>
    loopEffects (clipLow x) (clipHigh x w c.width - clipLow x) fun px =>
      [.writePixel px.toNat py.toNat (checkerValue (cellSize cell) (px - clipLow x) (py - clipLow y))]

/-- CLEAR's byte writes, in the order of R110's pseudocode. -/
def clearWrites (c : Config) : List Effect := (List.range (nbytes c)).map fun i => .writeByte i 0x00#8

end Sys2Proof.Machine
end

