-- ==== Sys2Proof/Machine/Sequence.lean ====
section
/-! DEFINITION. The reset sequence (spec/70_reset_and_hazards.md R160-R162). -/

namespace Sys2Proof.Machine

/-- The first actions of R160, done when reset is released: `PHASE <- RESET; BUSY <- 0; RESP <- empty`, the page RAM
cleared, `INV <- 0`. -/
def State.beginReset (s : State) : State :=
  { s with
    phase := .reset .assertPin
    busy := false
    resp := none
    fb := []
    inv := false
    started := true
    resetIn := false }

/-- `SetPin(RST_ACTIVE_LEVEL)`: refused, the sequence fails and `RST_OUT` is any value (R162, I16; log entry 7). -/
def assertPin (s : State) : State :=
  match s.nextAnswer with
  | .ok => { s.offerPin s.cfg.rstActiveLevel with rstOut := s.cfg.rstActiveLevel, phase := .reset .waitAsserted }
  | .err => { s.offerPin s.cfg.rstActiveLevel with rstOut := Config.freeLevel s.draws, phase := .failed }

/-- `SetPin(1 - RST_ACTIVE_LEVEL)`: refused, the sequence fails and `RST_OUT` keeps the level written last (R162). -/
def deassertPin (s : State) : State :=
  match s.nextAnswer with
  | .ok => { s.offerPin (!s.cfg.rstActiveLevel) with rstOut := !s.cfg.rstActiveLevel, phase := .reset .waitDeasserted }
  | .err => { s.offerPin (!s.cfg.rstActiveLevel) with phase := .failed }

/-- `Emit(CMD, INIT_TABLE[k])`, or `PHASE <- READY` once the table is done (R160); refused, the sequence fails (R162). -/
def offerEntry (k : Nat) (s : State) : State :=
  match s.cfg.initTable[k]? with
  | none => { s with phase := .ready }
  | some bytes =>
    match s.nextAnswer with
    | .ok => { s.emit .cmd bytes with phase := .reset (.entry (k + 1)) }
    | .err => { s.emit .cmd bytes with phase := .failed }

/-- One action of the reset sequence (R160). A `Wait` is a step without a duration (R161; log entry 16). -/
def sequenceStep (p : SeqPoint) (s : State) : State :=
  match p with
  | .assertPin => assertPin s
  | .waitAsserted => { s with phase := .reset .deassertPin }
  | .deassertPin => deassertPin s
  | .waitDeasserted => { s with phase := .reset (.entry 0) }
  | .entry k => offerEntry k s

end Sys2Proof.Machine
end

