-- ==== Sys2Proof/Machine/Ports.lean ====
section
/-! DEFINITION. The block's ports: which action comes next, the handshakes of the command and response ports, the
outside world's events, and a command abandoned by a reset (spec/70_reset_and_hazards.md R160, R164, R170;
spec/60_exceptions.md R145). -/

namespace Sys2Proof.Machine

/-- One step of the outside world's agenda is over. -/
def State.tick (s : State) : State := { s with agenda := s.agenda.tail }

/-- The command at the port is accepted (R30, R170), and the position in the host's stream advances (R27). -/
def State.accept (s : State) : State := { s with busy := true, port := s.port.tail, pos := s.pos + 1 }

/-- The host takes the response `r` (R30, R31). -/
def State.takeResponse (s : State) (r : Byte) : State :=
  { s with resp := none, busy := false, taken := s.taken ++ [r] }

/-- The command the port would accept now: `PHASE != RESET`, `BUSY = 0`, `RESP` empty (R170), reset not asserted, and a
command held. -/
def State.offered (s : State) : Option Word :=
  if s.resetIn ∨ s.started = false ∨ s.busy ∨ s.resp.isSome then none
  else
    match s.phase with
    | .reset _ => none
    | .ready => s.port.head?
    | .failed => s.port.head?

/-- The phase in which the port accepts what `withFetchWord` puts there: in `RESET` it would accept nothing (R170). -/
def openPhase (p : Phase) : Phase :=
  match p with
  | .reset _ => .ready
  | .ready => .ready
  | .failed => .failed

/-- What the block does in a step in which the outside world changes nothing. -/
def ownAction (s : State) : Action :=
  if s.resetIn then .idle
  else if s.started = false then .stuck
  else
    match s.phase, s.resp, s.offered with
    | .reset p, _, _ => .sequence p
    | _, some r, _ => if s.respReady then .take r else .idle
    | _, none, some cmd => .command cmd
    | _, none, none => .idle

/-- The next action: the outside world's event if it has one, else the block's own. -/
def nextAction (s : State) : Action :=
  if legal s.cfg = false then .unbuildable
  else
    match s.agenda.head? with
    | none => ownAction s
    | some .run => ownAction s
    | some (.resetDuring done) =>
      match s.offered with
      | some cmd => .abandon done cmd
      | none => .outside (.resetDuring done)
    | some (.present cmd) => .outside (.present cmd)
    | some (.setReady level) => .outside (.setReady level)
    | some .assertReset => .outside .assertReset
    | some .releaseReset => .outside .releaseReset

/-- What the outside world's event does (R27, R31, R160). Releasing a reset input that is not asserted changes
nothing; a reset meant to fall inside a command is a plain one where no command is accepted. -/
def applyEvent (e : Event) (s : State) : State :=
  match e with
  | .run => s
  | .present cmd => { s with port := s.port ++ [cmd] }
  | .setReady level => { s with respReady := level }
  | .assertReset => { s with resetIn := true }
  | .releaseReset => if s.resetIn then s.beginReset else s
  | .resetDuring _ => { s with resetIn := true }

/-- The checks of R145 in their order: `FAILED`, then the decoding, then the command itself. -/
def verdictOf (s : State) (cmd : Word) : Verdict :=
  match s.phase with
  | .failed => .notReady
  | _ =>
    match decode cmd with
    | .error _ => .illegal
    | .ok i => .run i

/-- The effects of a command that runs to its end, in order, if the sink refuses none: a drawing command's writes are
one effect (log entry 10). -/
def effectsOf (i : Instr) (s : State) : List Effect :=
  match i with
  | .clear => clearEffects s
  | .setpx x y v => setpxEffects x y v s
  | .getpx x y => getpxEffects x y s
  | .setrect x y w h v => setrectEffects x y w h v s
  | .chkrect x y w h c => chkrectEffects x y w h c s
  | .invert v => invertEffects v s
  | .flush => flushEffects s
  | .fillrect x y w h => setrectEffects x y w h true s
  | .clrrect x y w h => setrectEffects x y w h false s

/-- The effects of a command one by one, in the order of its rule's pseudocode: between any two of them a reset can fall
(R164). -/
def singleEffects (i : Instr) (s : State) : List Effect :=
  match i with
  | .clear => clearWrites s.cfg
  | .setpx x y v => setpxEffects x y v s
  | .getpx x y => getpxEffects x y s
  | .setrect x y w h v => setrectWrites s.cfg x y w h v
  | .chkrect x y w h c => chkrectWrites s.cfg x y w h c
  | .invert v => invertEffects v s
  | .flush => flushEffects s
  | .fillrect x y w h => setrectWrites s.cfg x y w h true
  | .clrrect x y w h => setrectWrites s.cfg x y w h false

/-- The single effects of an accepted word: none where it is answered with an error (R145). -/
def wordEffects (cmd : Word) (s : State) : List Effect :=
  match verdictOf s cmd with
  | .notReady => []
  | .illegal => []
  | .run i => singleEffects i s

/-- A command abandoned by a reset after `done` of its single effects (R164): it is accepted, those effects happen up to and
with the first refused transfer, its response is never produced, and the reset input stands asserted. -/
def abandonCommand (done : Nat) (cmd : Word) (s : State) : State :=
  { ((s.accept.runEffects ((wordEffects cmd s).take done)).1) with resetIn := true }

end Sys2Proof.Machine
end

