-- ==== Sys2Proof/Machine/Step.lean ====
section
/-! DEFINITION. One step of the machine: one event of the outside world, one action of the reset sequence, one taken
response, or one whole command (spec/20_memory.md R48, R50; spec/92_eei_decisions.md D1). -/

namespace Sys2Proof.Machine

/-- The accepted word `cmd` answered (R145). -/
def runCommand (cmd : Word) (s : State) : Host.Outcome State Fault Refusal :=
  match verdictOf s cmd with
  | .notReady => .next (s.raiseError .notReady)
  | .illegal => .next (s.raiseError .illegalCommand)
  | .run i => exec i s

/-- One step. -/
def step (s : State) : Host.Outcome State Fault Refusal :=
  match nextAction s with
  | .unbuildable => .refused .illegalConfiguration
  | .stuck => .fault .neverReset
  | .outside e => .next (applyEvent e s.tick)
  | .idle => .next s.tick
  | .sequence p => .next (sequenceStep p s.tick)
  | .take r => .next (s.tick.takeResponse r)
  | .abandon done cmd => .next (abandonCommand done cmd s.tick)
  | .command cmd => runCommand cmd s.tick.accept

/-- `s` with the 64-bit command word `w` where the next step accepts its command: first in the host's stream, with the
port open (R170) and the outside world still for one step (log entry 4). -/
def State.withFetchWord (s : State) (nbits w : Nat) : State :=
  { s with
    port := BitVec.ofNat 64 (w % 2 ^ nbits) :: s.port
    agenda := .run :: s.agenda
    phase := openPhase s.phase
    busy := false
    resp := none
    started := true
    resetIn := false }

end Sys2Proof.Machine
end

