-- ==== Sys2Proof/Safety.lean ====
section
/-! DEFINITION. The terms claims use: the answers the sink will give, the invariant of a block that a reset has
started, and what it is for a step to go on. -/

namespace Sys2Proof.Machine

/-! ### The spec's own formulas, as claims quote them -/

/-- `cmd[lo + n - 1 : lo]` as an unsigned number (R10). -/
def bitsAt (cmd : Word) (lo n : Nat) : Nat := cmd.toNat / 2 ^ lo % 2 ^ n

/-- `sext_N(v) = v - 2^N if v[N-1] = 1 else v` (R11). -/
def sext (n v : Nat) : Int := if 2 ^ (n - 1) ≤ v then (v : Int) - 2 ^ n else v

/-- The word of R68's formula. -/
def formulaWord (op : Nat) (v : Bool) (c x y w h : Int) : Word :=
  BitVec.ofNat 64 (op * 2 ^ 60 + v.toNat * 2 ^ 56 + (c % 2 ^ 8).toNat * 2 ^ 48 + (x % 2 ^ 12).toNat * 2 ^ 36
    + (y % 2 ^ 12).toNat * 2 ^ 24 + (w % 2 ^ 12).toNat * 2 ^ 12 + (h % 2 ^ 12).toNat)

/-- The operand range of a signed 12-bit field (R68). -/
def RangeS12 (v : Int) : Prop := -2048 ≤ v ∧ v ≤ 2047

/-- The operand range of a signed 8-bit field (R68). -/
def RangeS8 (v : Int) : Prop := -128 ≤ v ∧ v ≤ 127

/-- The pixels R101 says SETRECT writes: none where `w` or `h` is not positive (R102). -/
def InClampedRect (c : Config) (x y w h : Int) (px py : Nat) : Prop :=
  1 ≤ w ∧ 1 ≤ h ∧ cx c x ≤ px ∧ px ≤ cx c (x + w - 1) ∧ cy c y ≤ py ∧ py ≤ cy c (y + h - 1)

/-! ### States -/

/-- The sink's `k`-th answer from now (0 for the next): the outside world's, or a free value past its list. -/
def State.answerAt (s : State) (k : Nat) : SinkAnswer := s.answers.getD k (Config.freeAnswer (s.draws + k))

/-- The five response bytes a block produces (R140). -/
def responseBytes : List Byte := [0x00#8, 0x01#8, 0x10#8, 0x20#8, 0x30#8]

/-- The level of the reset pin where the reset sequence has written it: `RST_ACTIVE_LEVEL` until the second pin write,
`1 - RST_ACTIVE_LEVEL` from then on (R25, R160). Elsewhere the spec leaves it to R162. -/
def writtenLevel (c : Config) (p : Phase) : Option Bool :=
  match p with
  | .reset .assertPin => none
  | .reset .waitAsserted => some c.rstActiveLevel
  | .reset .deassertPin => some c.rstActiveLevel
  | .reset .waitDeasserted => some (!c.rstActiveLevel)
  | .reset (.entry _) => some (!c.rstActiveLevel)
  | .ready => some (!c.rstActiveLevel)
  | .failed => none

/-- What holds of every buildable block once a reset has been released. -/
structure Inv (s : State) : Prop where
  /-- The parameters are legal (R8). -/
  buildable    : legal s.cfg = true
  /-- A reset has been released (R33). -/
  running      : s.started = true
  /-- The page RAM is in canonical form. -/
  canonical    : s.fb.wf = true
  /-- The page RAM lists no address past `NBYTES - 1` (R40). -/
  bounded      : s.fb.within (nbytes s.cfg) = true
  /-- `BUSY` is 1 exactly while a response waits (R30, R31), but for a command a reset has abandoned (R164). -/
  busyPending  : s.resetIn = false → s.busy = s.resp.isSome
  /-- A pending response is one of R140's bytes. -/
  pendingByte  : ∀ r, s.resp = some r → r ∈ responseBytes
  /-- So is every response the host has taken. -/
  takenBytes   : ∀ r, r ∈ s.taken → r ∈ responseBytes
  /-- While the reset sequence runs, `BUSY`, `RESP`, `FB` and `INV` hold their reset values (R33). -/
  resetValues  : ∀ p, s.phase = .reset p → s.busy = false ∧ s.resp = none ∧ s.fb = [] ∧ s.inv = false
  /-- A failed block keeps the cleared `FB` and `INV` (R162). -/
  failedValues : s.phase = .failed → s.fb = [] ∧ s.inv = false
  /-- `RST_OUT` is at the level the sequence has written (R25). -/
  pinLevel     : ∀ l, writtenLevel s.cfg s.phase = some l → s.rstOut = l
  /-- The sequence never runs past the table's end. -/
  entryInTable : ∀ k, s.phase = .reset (.entry k) → k ≤ s.cfg.initTable.length

/-- A buildable block that a reset has started, with reset not asserted and the outside world still for one step. -/
def Undisturbed (s : State) : Prop :=
  legal s.cfg = true ∧ s.started = true ∧ s.resetIn = false
    ∧ (s.agenda.head? = none ∨ s.agenda.head? = some .run)

/-- `BUSY = 0`, `RESP` empty, and the command `cmd` held at the port (R170). -/
def Offers (s : State) (cmd : Word) : Prop := s.busy = false ∧ s.resp = none ∧ s.port.head? = some cmd

/-- A step goes on: it ends in a next state, neither a fault nor a refusal. -/
def GoesOn (s : State) : Prop := ∃ t, step s = .next t

end Sys2Proof.Machine
end

