-- ==== Sys2Proof/Certificates/Slice0/Obligations.lean ====
section
/-! DEFINITION. The statements about the block for the provers, each from the rules of spec/ its docstring names. -/

open Sys2Proof Sys2Proof.Machine

/-! ## Reset, configuration and the invariant -/

/-- R33's table: in the reset state every byte of the page RAM reads `0x00`, `INV` is 0, `PHASE` is `READY`, `RST_OUT`
is inactive, `BUSY` is 0 and `RESP` is empty. -/
def Obligations.ResetStateHoldsSpecValues : Prop :=
  (∀ c : Config,
    (∀ i, (State.resetOf c).fb.read i = 0x00#8) ∧ (State.resetOf c).inv = false ∧ (State.resetOf c).phase = .ready ∧
      (State.resetOf c).rstOut = (!c.rstActiveLevel) ∧ (State.resetOf c).busy = false ∧ (State.resetOf c).resp = none) ∧
    State.reset = State.resetOf State.reset.cfg

/-- The reset state of every legal instance meets the invariant, the one `State.reset` stands for among them (its
128 x 64 display is the model's choice, log entry 2). -/
def Obligations.ResetMeetsInvariant : Prop :=
  (∀ c : Config, legal c = true → Inv (State.resetOf c)) ∧ Inv State.reset

/-- Every step keeps the invariant: the page RAM stays canonical and inside `NBYTES`, `BUSY` goes with `RESP`, every
response is one of R140's bytes, a resetting or failed block holds cleared `FB` and `INV` (R33, R162), and `RST_OUT` is
at the level the sequence has written (R25). -/
def Obligations.StepKeepsInvariant : Prop := ∀ s t : State, Inv s → step s = .next t → Inv t

/-- "No error is fatal to the block" (R148): a block that meets the invariant never stops. -/
def Obligations.InvariantBlockNeverStops : Prop := ∀ s : State, Inv s → GoesOn s

/-- R8: outside the legal ranges no instance exists, and the model refuses the state; inside them, with an
initialization table of non-empty entries (R163), it does not refuse it. -/
def Obligations.IllegalConfigurationRefused : Prop :=
  ∀ s : State,
    (¬(1 ≤ s.cfg.width ∧ s.cfg.width ≤ 256 ∧ 8 ≤ s.cfg.height ∧ s.cfg.height ≤ 2040 ∧ s.cfg.height % 8 = 0) →
      step s = .refused .illegalConfiguration) ∧
    (1 ≤ s.cfg.width → s.cfg.width ≤ 256 → 8 ≤ s.cfg.height → s.cfg.height ≤ 2040 → s.cfg.height % 8 = 0 →
      (∀ e ∈ s.cfg.initTable, e ≠ []) → step s ≠ .refused .illegalConfiguration)

/-- R32: the parameters are "never written by a command, the same before and after reset". -/
def Obligations.ConfigurationNeverChanges : Prop := ∀ s t : State, step s = .next t → t.cfg = s.cfg

/-- "The block is not operating until a reset has run" (R33, I10): before the first reset it has no step of its own. -/
def Obligations.BlockStuckBeforeFirstReset : Prop :=
  ∀ s : State, legal s.cfg = true → s.started = false → s.resetIn = false →
    (s.agenda.head? = none ∨ s.agenda.head? = some .run) → step s = .fault .neverReset

/-- R160's reset input: asserting it changes only the input's level; while it is asserted the block does nothing; its
release clears `FB`, `INV`, `BUSY` and `RESP` and starts the sequence. That the old values stay until the release is the
model's inference (log entry 12). -/
def Obligations.ResetInputHoldsAndReleases : Prop :=
  ∀ s : State, legal s.cfg = true →
    (s.agenda.head? = some .assertReset →
      step s = .next { s with resetIn := true, agenda := s.agenda.tail }) ∧
    (s.resetIn = true → (s.agenda.head? = none ∨ s.agenda.head? = some .run) →
      step s = .next { s with agenda := s.agenda.tail }) ∧
    (s.resetIn = true → s.agenda.head? = some .releaseReset →
      step s = .next { s with
        phase := .reset .assertPin, busy := false, resp := none, fb := [], inv := false
        started := true, resetIn := false, agenda := s.agenda.tail })

/-- R160 with every answer `ok`: from the release of reset, whatever the state before, the pulse and then the table's
entries in order are offered, nothing else, and the block ends `READY` in R33's values. -/
def Obligations.AcceptedResetReachesReady : Prop :=
  ∀ s : State, legal s.cfg = true → s.resetIn = true → s.agenda = [.releaseReset] →
    (∀ k, k < s.cfg.initTable.length + 2 → s.answerAt k = .ok) →
    Host.Core.run core (s.cfg.initTable.length + 6) s = .next { s with
      fb := [], inv := false, phase := .ready, rstOut := !s.cfg.rstActiveLevel, busy := false, resp := none
      started := true, resetIn := false, agenda := []
      answers := s.answers.drop (s.cfg.initTable.length + 2)
      draws := s.draws + (s.cfg.initTable.length + 2)
      sinkLog := s.sinkLog ++ [.pin s.cfg.rstActiveLevel .ok, .pin (!s.cfg.rstActiveLevel) .ok]
        ++ s.cfg.initTable.map fun e => .transfer .cmd e .ok }

/-- R162: a refused pin write or transfer ends the sequence in `FAILED`, with `FB` and `INV` as they are (cleared, by
the invariant); `RST_OUT` keeps its level, but for a refused first pin write, after which it is some level (I16; that
it is so on a later reset too is the model's choice, log entry 7). -/
def Obligations.RefusedResetActionFails : Prop :=
  ∀ s : State, Undisturbed s → s.nextAnswer = .err →
    (s.phase = .reset .assertPin → ∃ level, step s = .next { s with
      phase := .failed, rstOut := level, agenda := s.agenda.tail, answers := s.answers.tail, draws := s.draws + 1
      sinkLog := s.sinkLog ++ [.pin s.cfg.rstActiveLevel .err] }) ∧
    (s.phase = .reset .deassertPin → step s = .next { s with
      phase := .failed, agenda := s.agenda.tail, answers := s.answers.tail, draws := s.draws + 1
      sinkLog := s.sinkLog ++ [.pin (!s.cfg.rstActiveLevel) .err] }) ∧
    (∀ k bytes, s.phase = .reset (.entry k) → s.cfg.initTable[k]? = some bytes → step s = .next { s with
      phase := .failed, agenda := s.agenda.tail, answers := s.answers.tail, draws := s.draws + 1
      sinkLog := s.sinkLog ++ [.transfer .cmd bytes .err] })

/-- R142: while `PHASE = FAILED` every command, legal or not, is answered `NOT_READY`, with no effect on `FB`, `INV`
or the sink, and only a reset leaves `FAILED`. -/
def Obligations.FailedLastsUntilReset : Prop :=
  (∀ (s : State) (cmd : Word), Undisturbed s → Offers s cmd → s.phase = .failed → step s = .next { s with
    agenda := s.agenda.tail, port := s.port.tail, busy := true, pos := s.pos + 1, resp := some 0x30#8 }) ∧
  (∀ s t : State, s.phase = .failed → step s = .next t →
    (t.phase = .failed ∧ t.fb = s.fb ∧ t.inv = s.inv ∧ t.sinkLog = s.sinkLog ∧ t.rstOut = s.rstOut) ∨
    (s.resetIn = true ∧ s.agenda.head? = some .releaseReset ∧ t.phase = .reset .assertPin))

/-! ## Encoding -/

/-- R62: the operands of a command word, field by field, and that sums never wrap. -/
def Obligations.OperandsSignExtended : Prop :=
  ∀ cmd : Word,
    operandV cmd = decide (bitsAt cmd 56 1 = 1) ∧ operandC cmd = sext 8 (bitsAt cmd 48 8) ∧
    operandX cmd = sext 12 (bitsAt cmd 36 12) ∧ operandY cmd = sext 12 (bitsAt cmd 24 12) ∧
    operandW cmd = sext 12 (bitsAt cmd 12 12) ∧ operandH cmd = sext 12 (bitsAt cmd 0 12) ∧
    RangeS8 (operandC cmd) ∧ RangeS12 (operandX cmd) ∧ RangeS12 (operandY cmd) ∧ RangeS12 (operandW cmd) ∧
    RangeS12 (operandH cmd) ∧
    (-4096 ≤ operandX cmd + operandW cmd ∧ operandX cmd + operandW cmd ≤ 4094) ∧
    (-4096 ≤ operandY cmd + operandH cmd ∧ operandY cmd + operandH cmd ≤ 4094)

/-- R64: a word decodes by the one row whose masked bits it matches, and one that matches no row decodes to nothing. -/
def Obligations.DecodeFollowsMatchAndMask : Prop :=
  ∀ cmd : Word,
    (∀ r ∈ opcodeRows, ∀ r' ∈ opcodeRows, r.hits cmd = true → r'.hits cmd = true → r = r') ∧
    (cmd &&& 0xFFFFFFFFFFFFFFFF#64 = 0x1000000000000000#64 → decode cmd = .ok .clear) ∧
    (cmd &&& 0xFEFF000000FFFFFF#64 = 0x2000000000000000#64 →
      decode cmd = .ok (.setpx (operandX cmd) (operandY cmd) (operandV cmd))) ∧
    (cmd &&& 0xFFFF000000FFFFFF#64 = 0x3000000000000000#64 →
      decode cmd = .ok (.getpx (operandX cmd) (operandY cmd))) ∧
    (cmd &&& 0xFEFF000000000000#64 = 0x4000000000000000#64 →
      decode cmd = .ok (.setrect (operandX cmd) (operandY cmd) (operandW cmd) (operandH cmd) (operandV cmd))) ∧
    (cmd &&& 0xFF00000000000000#64 = 0x5000000000000000#64 →
      decode cmd = .ok (.chkrect (operandX cmd) (operandY cmd) (operandW cmd) (operandH cmd) (operandC cmd))) ∧
    (cmd &&& 0xFEFFFFFFFFFFFFFF#64 = 0x6000000000000000#64 → decode cmd = .ok (.invert (operandV cmd))) ∧
    (cmd &&& 0xFFFFFFFFFFFFFFFF#64 = 0x7000000000000000#64 → decode cmd = .ok .flush) ∧
    ((∀ r ∈ opcodeRows, r.hits cmd = false) → ∃ why, decode cmd = .error why)

/-- R63: a word decodes exactly when its `OP` is assigned and every field its `OP` does not read is zero. -/
def Obligations.DecodeAsksForZeroFields : Prop :=
  ∀ cmd : Word, (∃ i, decode cmd = .ok i) ↔
    fieldRSV cmd = 0#3 ∧
    ((fieldOP cmd = 0x1#4 ∧ fieldV cmd = false ∧ fieldC cmd = 0#8 ∧ fieldX cmd = 0#12 ∧ fieldY cmd = 0#12 ∧
        fieldW cmd = 0#12 ∧ fieldH cmd = 0#12) ∨
     (fieldOP cmd = 0x2#4 ∧ fieldC cmd = 0#8 ∧ fieldW cmd = 0#12 ∧ fieldH cmd = 0#12) ∨
     (fieldOP cmd = 0x3#4 ∧ fieldV cmd = false ∧ fieldC cmd = 0#8 ∧ fieldW cmd = 0#12 ∧ fieldH cmd = 0#12) ∨
     (fieldOP cmd = 0x4#4 ∧ fieldC cmd = 0#8) ∨
     (fieldOP cmd = 0x5#4 ∧ fieldV cmd = false) ∨
     (fieldOP cmd = 0x6#4 ∧ fieldC cmd = 0#8 ∧ fieldX cmd = 0#12 ∧ fieldY cmd = 0#12 ∧ fieldW cmd = 0#12 ∧
        fieldH cmd = 0#12) ∨
     (fieldOP cmd = 0x7#4 ∧ fieldV cmd = false ∧ fieldC cmd = 0#8 ∧ fieldX cmd = 0#12 ∧ fieldY cmd = 0#12 ∧
        fieldW cmd = 0#12 ∧ fieldH cmd = 0#12))

/-- R65: every word with `OP` 0x0 or 0x8 .. 0xF is illegal, the all-zero word among them; accepted, it is answered
`ILLEGAL_COMMAND` and nothing else happens. -/
def Obligations.ReservedOpcodesIllegal : Prop :=
  (∀ cmd : Word, fieldOP cmd = 0x0#4 ∨ 0x8#4 ≤ fieldOP cmd →
    decode cmd = .error (.reservedOpcode (fieldOP cmd)) ∧
    ∀ s : State, Undisturbed s → Offers s cmd → s.phase = .ready → step s = .next { s with
      agenda := s.agenda.tail, port := s.port.tail, busy := true, pos := s.pos + 1, resp := some 0x10#8 }) ∧
    decode 0#64 = .error (.reservedOpcode 0x0#4)

/-- Decoding the word of a well-formed command gives the command back, with every operand at every value the encoding
admits; a pseudo-instruction gives the SETRECT it expands to (R68, R69). -/
def Obligations.DecodeInvertsEncode : Prop := ∀ i : Instr, i.wf = true → decode (encode i) = .ok i.expand

/-- Each word has one meaning: a word that decodes is the word of the well-formed core command it decodes to. -/
def Obligations.EncodeInvertsDecode : Prop :=
  ∀ (cmd : Word) (i : Instr), decode cmd = .ok i → i.wf = true ∧ encode i = cmd ∧ i.expand = i

/-- R68: the assembled word of every syntax, by the rule's formula, and none for an operand outside its range. -/
def Obligations.AssemblerFollowsFormula : Prop :=
  assembleChecked .clear = some (formulaWord 1 false 0 0 0 0 0) ∧
  (∀ x y v, (RangeS12 x ∧ RangeS12 y → assembleChecked (.setpx x y v) = some (formulaWord 2 v 0 x y 0 0)) ∧
    (¬(RangeS12 x ∧ RangeS12 y) → assembleChecked (.setpx x y v) = none)) ∧
  (∀ x y, (RangeS12 x ∧ RangeS12 y → assembleChecked (.getpx x y) = some (formulaWord 3 false 0 x y 0 0)) ∧
    (¬(RangeS12 x ∧ RangeS12 y) → assembleChecked (.getpx x y) = none)) ∧
  (∀ x y w h v,
    (RangeS12 x ∧ RangeS12 y ∧ RangeS12 w ∧ RangeS12 h →
      assembleChecked (.setrect x y w h v) = some (formulaWord 4 v 0 x y w h)) ∧
    (¬(RangeS12 x ∧ RangeS12 y ∧ RangeS12 w ∧ RangeS12 h) → assembleChecked (.setrect x y w h v) = none)) ∧
  (∀ x y w h c,
    (RangeS12 x ∧ RangeS12 y ∧ RangeS12 w ∧ RangeS12 h ∧ RangeS8 c →
      assembleChecked (.chkrect x y w h c) = some (formulaWord 5 false c x y w h)) ∧
    (¬(RangeS12 x ∧ RangeS12 y ∧ RangeS12 w ∧ RangeS12 h ∧ RangeS8 c) →
      assembleChecked (.chkrect x y w h c) = none)) ∧
  (∀ v, assembleChecked (.invert v) = some (formulaWord 6 v 0 0 0 0 0)) ∧
  assembleChecked .flush = some (formulaWord 7 false 0 0 0 0 0)

/-- R69: FILLRECT and CLRRECT are SETRECT with `v` 1 and 0, in their words and in what they do. -/
def Obligations.PseudoInstructionsExpand : Prop :=
  ∀ (x y w h : Int) (s : State),
    encode (.fillrect x y w h) = encode (.setrect x y w h true) ∧
    encode (.clrrect x y w h) = encode (.setrect x y w h false) ∧
    exec (.fillrect x y w h) s = exec (.setrect x y w h true) s ∧
    exec (.clrrect x y w h) s = exec (.setrect x y w h false) s

/-- Words written out in the spec (R69's examples; 95_test_vectors.md E2, E11) decode to the commands it names. -/
def Obligations.SampleWordsDecode : Prop :=
  decode 0x1000000000000000#64 = .ok .clear ∧
  decode 0x210000500A000000#64 = .ok (.setpx 5 10 true) ∧
  decode 0x2100FFF000000000#64 = .ok (.setpx (-1) 0 true) ∧
  decode 0x300000500A000000#64 = .ok (.getpx 5 10) ∧
  decode 0x4100000000008008#64 = .ok (.setrect 0 0 8 8 true) ∧
  decode 0x5004000000008008#64 = .ok (.chkrect 0 0 8 8 4) ∧
  decode 0x50FF000000000000#64 = .ok (.chkrect 0 0 0 0 (-1)) ∧
  decode 0x6100000000000000#64 = .ok (.invert true) ∧
  decode 0x7000000000000000#64 = .ok .flush

/-! ## Ports and responses -/

/-- When the port is open and a command that decodes to `i` is held there, the step is `i`'s execution, the command
taken from the port, `BUSY` set and the position in the host's stream advanced (R27, R30, R170). That a step takes one
entry off the outside world's agenda is the model's choice (log entry 5). -/
def Obligations.StepRunsDecodedCommand : Prop :=
  ∀ (s : State) (cmd : Word) (i : Instr), Undisturbed s → Offers s cmd → s.phase = .ready → decode cmd = .ok i →
    step s = exec i { s with
      agenda := s.agenda.tail, port := s.port.tail, busy := true, pos := s.pos + 1 }

/-- The word `withFetchWord` places is the very next command that runs (the model's choice of how a program comes to
run, log entry 4). -/
def Obligations.FetchedWordRunsNext : Prop :=
  ∀ (s : State) (w : Nat) (i : Instr), legal s.cfg = true → s.phase ≠ .failed → w < 2 ^ 64 →
    decode (BitVec.ofNat 64 w) = .ok i →
    step (s.withFetchWord 64 w) = exec i { s with
      phase := .ready, busy := true, resp := none, started := true, resetIn := false, pos := s.pos + 1 }

/-- R145's order, with R141: an accepted command is answered `NOT_READY` while `PHASE = FAILED` whatever its word; else
`ILLEGAL_COMMAND` if no row matches; else it executes. The two errors have no other effect. -/
def Obligations.CommandChecksInOrder : Prop :=
  ∀ (s : State) (cmd : Word), Undisturbed s → Offers s cmd →
    (s.phase = .failed → step s = .next { s with
      agenda := s.agenda.tail, port := s.port.tail, busy := true, pos := s.pos + 1, resp := some 0x30#8 }) ∧
    (s.phase = .ready → (∀ r ∈ opcodeRows, r.hits cmd = false) → step s = .next { s with
      agenda := s.agenda.tail, port := s.port.tail, busy := true, pos := s.pos + 1, resp := some 0x10#8 }) ∧
    (s.phase = .ready → ∀ i, decode cmd = .ok i → step s = exec i { s with
      agenda := s.agenda.tail, port := s.port.tail, busy := true, pos := s.pos + 1 })

/-- R140: every command answers one response, one of the five bytes, with bits 3:1 zero; only GETPX answers `0x01`. -/
def Obligations.EveryCommandAnswersOnce : Prop :=
  ∀ (i : Instr) (s : State), s.phase = .ready ∨ s.phase = .failed →
    ∃ t r, exec i s = .next t ∧ t.resp = some r ∧ t.taken = s.taken ∧
      (r = 0x00#8 ∨ r = 0x01#8 ∨ r = 0x10#8 ∨ r = 0x20#8 ∨ r = 0x30#8) ∧ r.extractLsb' 1 3 = 0#3 ∧
      (r = 0x01#8 → ∃ x y, i = .getpx x y)

/-- R144: `SINK_ERROR` is the answer of INVERT and FLUSH only, and only to a transfer the sink refused. -/
def Obligations.SinkErrorOnlyWhenRefused : Prop :=
  ∀ (i : Instr) (s t : State), s.phase = .ready → exec i s = .next t →
    (t.resp = some 0x20#8 ↔
      (∃ v, i = .invert v) ∧ s.answerAt 0 = .err ∨
      i = .flush ∧ (s.answerAt 0 = .err ∨ s.answerAt 1 = .err ∨ s.answerAt 2 = .err))

/-- R170: a command leaves the port, in order, only when `PHASE != RESET`, `BUSY = 0` and `RESP` is empty; it does leave
it then; and a host that never takes its response blocks the port for good. The outside world's events are the model's
(log entry 5). -/
def Obligations.PortAcceptsOnlyWhenOpen : Prop :=
  (∀ s t : State, step s = .next t →
    (t.port = s.port ∧ t.pos = s.pos) ∨
    (∃ cmd, s.agenda.head? = some (.present cmd) ∧ t.port = s.port ++ [cmd] ∧ t.pos = s.pos) ∨
    (∃ cmd, s.port = cmd :: t.port ∧ t.pos = s.pos + 1 ∧ (∀ p, s.phase ≠ .reset p) ∧ s.busy = false ∧ s.resp = none)) ∧
  (∀ (s : State) (cmd : Word) (rest : List Word), Undisturbed s → (∀ p, s.phase ≠ .reset p) → s.busy = false →
    s.resp = none → s.port = cmd :: rest → ∃ t, step s = .next t ∧ t.port = rest ∧ t.busy = true ∧ t.resp.isSome) ∧
  (∀ (s : State) (n : Nat), Undisturbed s → (∀ p, s.phase ≠ .reset p) → s.resp.isSome → s.respReady = false →
    s.agenda = [] → Host.Core.run core n s = .next s)

/-- R31, R30: through every step, whatever the outside world does in it, a pending response is held, and `BUSY` with it,
until the host takes it or a release of reset empties both; and where the outside world is still, the host's ready line
decides. -/
def Obligations.ResponseHeldUntilTaken : Prop :=
  (∀ (s t : State) (r : Byte), step s = .next t → s.resp = some r →
    (t.resp = some r ∧ t.busy = s.busy ∧ t.taken = s.taken) ∨
    (s.respReady = true ∧ t.taken = s.taken ++ [r] ∧ t.resp = none ∧ t.busy = false) ∨
    (s.resetIn = true ∧ s.agenda.head? = some .releaseReset ∧ t.resp = none ∧ t.busy = false ∧ t.taken = s.taken)) ∧
  (∀ (s : State) (r : Byte), Undisturbed s → (∀ p, s.phase ≠ .reset p) → s.resp = some r →
    (s.respReady = true → step s = .next { s with
      agenda := s.agenda.tail, resp := none, busy := false, taken := s.taken ++ [r] }) ∧
    (s.respReady = false → step s = .next { s with agenda := s.agenda.tail }))

/-- R30, R31: `BUSY` and `RESP` are written only where a command is accepted (`BUSY` becomes 1, and `RESP` its answer
unless a reset abandons it, R164), where the host takes the response, and where a reset is released. -/
def Obligations.BusyAndRespWrittenOnlyByHandshakes : Prop :=
  ∀ s t : State, step s = .next t → t.busy ≠ s.busy ∨ t.resp ≠ s.resp →
    (s.busy = false ∧ s.resp = none ∧ s.resetIn = false ∧ (s.phase = .ready ∨ s.phase = .failed) ∧
      (∃ cmd, s.port = cmd :: t.port) ∧ t.pos = s.pos + 1 ∧ t.busy = true ∧
      (t.resp.isSome ∨ t.resetIn = true ∧ ∃ done, s.agenda.head? = some (.resetDuring done))) ∨
    (∃ r, s.resp = some r ∧ s.respReady = true ∧ t.resp = none ∧ t.busy = false ∧ t.taken = s.taken ++ [r]) ∨
    (s.resetIn = true ∧ s.agenda.head? = some .releaseReset ∧ t.resp = none ∧ t.busy = false)

/-- R164: a command abandoned by a reset answers nothing, and the sink has received a prefix of what the whole command
would have offered; every such prefix is possible, and a reset after the last effect leaves all of it. That the command leaves the port then is the model's inference (log
entry 11). -/
def Obligations.AbandonedCommandLeavesPrefix : Prop :=
  ∀ (s u : State) (cmd : Word) (i : Instr), legal s.cfg = true → s.started = true → s.resetIn = false →
    s.phase = .ready → Offers s cmd → decode cmd = .ok i → exec i s = .next u →
    (∀ done, ∃ t l l', step { s with agenda := [.resetDuring done] } = .next t ∧ t.resp = none ∧ t.taken = s.taken ∧
      t.resetIn = true ∧ t.port = s.port.tail ∧ t.sinkLog = s.sinkLog ++ l ∧ u.sinkLog = t.sinkLog ++ l') ∧
    (∀ l l', u.sinkLog = s.sinkLog ++ l ++ l' →
      ∃ done t, step { s with agenda := [.resetDuring done] } = .next t ∧ t.sinkLog = s.sinkLog ++ l)

/-- R164 with R100, R105, R110, R120 and R121: a reset can fall between any two page RAM writes of a command, and between
INVERT's two effects: asserted after `done` of them it leaves exactly the first `done`. Two things here are the model's
inferences. That the writes of SETRECT and of CHKRECT have the order of the rule's pseudocode is log entry 10 (the order
is not the source's, 91_not_in_source.md, and does not matter once all are done). That the abandoned command has been
accepted, so is gone from the port with `BUSY` 1 and the position advanced, is log entry 11 (from R27, R30 and R170).
What INVERT and FLUSH have offered to the sink is AbandonedCommandLeavesPrefix's. -/
def Obligations.AbandonedCommandLeavesFirstWrites : Prop :=
  ∀ (s : State) (cmd : Word) (i : Instr) (done : Nat), legal s.cfg = true → s.fb.wf = true → s.started = true →
    s.resetIn = false → s.phase = .ready → Offers s cmd → decode cmd = .ok i →
    let abandoned : State := { s with agenda := [], port := s.port.tail, busy := true, pos := s.pos + 1, resetIn := true }
    (∀ x y v, i = .setpx x y v → step { s with agenda := [.resetDuring done] } = .next { abandoned with
      fb := if done = 0 then s.fb else writePixel s.cfg (cx s.cfg x) (cy s.cfg y) v s.fb }) ∧
    (∀ x y w h v, i = .setrect x y w h v →
      let pixels : List (Int × Int) :=
        (List.range h.toNat).flatMap fun (b : Nat) => (List.range w.toNat).map fun (a : Nat) => (x + a, y + b)
      step { s with agenda := [.resetDuring done] } = .next { abandoned with
        fb := (pixels.take done).foldl (fun m p => writePixel s.cfg (cx s.cfg p.1) (cy s.cfg p.2) v m) s.fb }) ∧
    (∀ x y w h c, i = .chkrect x y w h c →
      let x0 := max x 0
      let y0 := max y 0
      let size := if 1 ≤ c then c else 1
      let pixels : List (Nat × Nat) :=
        (List.range (min (y + h) s.cfg.height - y0).toNat).flatMap fun (b : Nat) =>
          (List.range (min (x + w) s.cfg.width - x0).toNat).map fun (a : Nat) => (a, b)
      step { s with agenda := [.resetDuring done] } = .next { abandoned with
        fb := (pixels.take done).foldl (fun m p => writePixel s.cfg (x0 + p.1).toNat (y0 + p.2).toNat
          (decide ((p.1 / size + p.2 / size) % 2 = 0)) m) s.fb }) ∧
    (i = .clear → ∃ m, step { s with agenda := [.resetDuring done] } = .next { abandoned with fb := m } ∧
      ∀ a, m.read a = if a < done ∧ a < nbytes s.cfg then 0x00#8 else s.fb.read a) ∧
    (∀ x y, i = .getpx x y → step { s with agenda := [.resetDuring done] } = .next abandoned) ∧
    (∀ v, i = .invert v →
      (done = 0 → step { s with agenda := [.resetDuring done] } = .next abandoned) ∧
      (done = 1 → step { s with agenda := [.resetDuring done] } = .next { abandoned with inv := v }))

/-- R56, R164: a command's single effects, all of them, leave what the command leaves when it runs to its end, in the
page RAM, in `INV` and at the sink, with the same answer. -/
def Obligations.SingleEffectsMakeTheCommand : Prop :=
  ∀ (i : Instr) (s : State), legal s.cfg = true → s.fb.wf = true →
    s.runEffects (singleEffects i s) = s.runEffects (effectsOf i s)

/-! ## Who writes what -/

/-- R20 (its last sentence, which the spec derives): `FB` is written only by a SETPX, SETRECT, CHKRECT or CLEAR that the
port accepts in this step, and cleared by a reset. -/
def Obligations.PageRamWrittenOnlyByDrawing : Prop :=
  ∀ s t : State, step s = .next t → t.fb ≠ s.fb →
    (s.resetIn = true ∧ s.agenda.head? = some .releaseReset ∧ t.fb = []) ∨
    (∃ cmd i, s.phase = .ready ∧ s.busy = false ∧ s.resp = none ∧ s.resetIn = false ∧ s.port = cmd :: t.port ∧
      t.pos = s.pos + 1 ∧ decode cmd = .ok i ∧
      ((∃ x y v, i = .setpx x y v) ∨ (∃ x y w h v, i = .setrect x y w h v) ∨ (∃ x y w h c, i = .chkrect x y w h c) ∨
        i = .clear))

/-- R23: `INV` is written only by an INVERT that the port accepts in this step, with its operand, and cleared by a
reset. -/
def Obligations.InvWrittenOnlyByInvert : Prop :=
  ∀ s t : State, step s = .next t → t.inv ≠ s.inv →
    (s.resetIn = true ∧ s.agenda.head? = some .releaseReset ∧ t.inv = false) ∨
    (∃ cmd v, s.phase = .ready ∧ s.busy = false ∧ s.resp = none ∧ s.resetIn = false ∧ s.port = cmd :: t.port ∧
      t.pos = s.pos + 1 ∧ decode cmd = .ok (.invert v) ∧ t.inv = v)

/-- R24, R25: `PHASE` and `RST_OUT` are written only by the reset sequence, `RST_OUT` only by its two pin writes. -/
def Obligations.PhaseAndPinWrittenOnlyByReset : Prop :=
  ∀ s t : State, step s = .next t →
    (t.phase ≠ s.phase → (∃ p, s.phase = .reset p) ∨
      (s.resetIn = true ∧ s.agenda.head? = some .releaseReset ∧ t.phase = .reset .assertPin)) ∧
    (t.rstOut ≠ s.rstOut → s.phase = .reset .assertPin ∨ s.phase = .reset .deassertPin)

/-- R50, R51: what has been offered to the sink, or taken by the host, is never changed by a later step; and every
transfer offered carries a non-empty byte string (R45). -/
def Obligations.OutputsOnlyGrow : Prop :=
  ∀ s t : State, step s = .next t →
    (∃ l, t.sinkLog = s.sinkLog ++ l ∧ ∀ kind bytes answer, .transfer kind bytes answer ∈ l → bytes ≠ []) ∧
    (t.taken = s.taken ∨ ∃ r, s.resp = some r ∧ t.taken = s.taken ++ [r])

/-- The frame of the drawing commands and GETPX (R80, R85, R100, R105, R110, R172): the page RAM and the response are
all that changes, and GETPX leaves the page RAM too. -/
def Obligations.DrawingCommandsFrame : Prop :=
  ∀ (i : Instr) (s t : State), (∀ v, i ≠ .invert v) → i ≠ .flush → exec i s = .next t →
    t = { s with fb := t.fb, resp := t.resp } ∧ (∀ x y, i = .getpx x y → t.fb = s.fb)

/-- R122 (a rule the spec derives): `INV` takes no part in any command but INVERT: the other commands do the same, and
emit the same, whatever `INV` is; a FLUSH whose windows the sink accepts emits the page RAM bytes as stored. -/
def Obligations.InvTakesNoPart : Prop :=
  (∀ (i : Instr) (s t : State) (b : Bool), (∀ v, i ≠ .invert v) → exec i s = .next t →
    exec i { s with inv := b } = .next { t with inv := b }) ∧
  (∀ s t : State, s.phase = .ready → s.answerAt 0 = .ok → s.answerAt 1 = .ok → exec .flush s = .next t →
    t.sinkLog.getLast? = some (.transfer .data ((List.range (nbytes s.cfg)).map s.fb.read) (s.answerAt 2)))

/-! ## Pixels -/

/-- R13: the coordinate helpers. -/
def Obligations.CoordinateHelpersFollowFormulas : Prop :=
  ∀ c : Config, legal c = true →
    (∀ x : Int, (cx c x : Int) = min (max x 0) (c.width - 1)) ∧
    (∀ y : Int, (cy c y : Int) = min (max y 0) (c.height - 1)) ∧
    (∀ px py, px < c.width → py < c.height → byteIndex c px py = px + py / 8 * c.width ∧ bitIndex py = py &&& 7)

/-- R22, R20: bit `k` of byte `FB[x + p*WIDTH]` is pixel `(x, 8p + k)`, and byte `i` of the `NBYTES` belongs to page
`i / WIDTH` and column `i mod WIDTH`. -/
def Obligations.PagesPackEightRows : Prop :=
  ∀ (c : Config) (m : Memory), legal c = true →
    nbytes c = c.height / 8 * c.width ∧
    (∀ x p k, x < c.width → p < npages c → k < 8 →
      x + p * c.width < nbytes c ∧ pixel c m x (8 * p + k) = (m.read (x + p * c.width)).getLsbD k) ∧
    (∀ i, i < nbytes c → i % c.width < c.width ∧ i / c.width < npages c ∧
      ∀ k, k < 8 → pixel c m (i % c.width) (8 * (i / c.width) + k) = (m.read i).getLsbD k)

/-- SETPX (R80): in `READY` it completes; byte `byte_index` gets the bit, every other byte and everything else but the
response `0x00` stays. -/
def Obligations.SetpxWritesClampedPixel : Prop :=
  ∀ (x y : Int) (v : Bool) (s : State), legal s.cfg = true → s.fb.wf = true → s.phase = .ready →
    let i := cx s.cfg x + cy s.cfg y / 8 * s.cfg.width
    let b := cy s.cfg y % 8
    ∃ m, exec (.setpx x y v) s = .next { s with fb := m, resp := some 0x00#8 } ∧
      (v = true → m.read i = s.fb.read i ||| (1#8 <<< b)) ∧
      (v = false → m.read i = s.fb.read i &&& (0xFF#8 - (1#8 <<< b))) ∧
      ∀ a, a ≠ i → m.read a = s.fb.read a

/-- R44: SETPX changes one bit of one byte, "setting a pixel never perturbs adjacent bits in the same byte". -/
def Obligations.SetpxChangesOneBit : Prop :=
  ∀ (x y : Int) (v : Bool) (s t : State), s.fb.wf = true → s.phase = .ready → exec (.setpx x y v) s = .next t →
    ∀ a k, k < 8 → (t.fb.read a).getLsbD k =
      if a = byteIndex s.cfg (cx s.cfg x) (cy s.cfg y) ∧ k = bitIndex (cy s.cfg y) then v
      else (s.fb.read a).getLsbD k

/-- R81 (derived by the spec from R13 and R80): SETPX and GETPX address `(cx(x), cy(y))`, each coordinate clamped by itself; on a 128 x 64 display `(-5, 99)`
is pixel `(0, 63)`, byte 896, bit 7. -/
def Obligations.ClampingIsPerCoordinate : Prop :=
  (∀ (x y : Int) (v : Bool) (s : State), legal s.cfg = true →
    exec (.setpx x y v) s = exec (.setpx (cx s.cfg x) (cy s.cfg y) v) s ∧
    exec (.getpx x y) s = exec (.getpx (cx s.cfg x) (cy s.cfg y)) s) ∧
  (∀ c : Config, c.width = 128 → c.height = 64 →
    cx c (-5) = 0 ∧ cy c 99 = 63 ∧ byteIndex c (cx c (-5)) (cy c 99) = 896 ∧ bitIndex (cy c 99) = 7)

/-- GETPX (R85, R47): in `READY` it completes; it answers `OK` with the pixel's bit and changes nothing else. -/
def Obligations.GetpxAnswersPixel : Prop :=
  ∀ (x y : Int) (s : State), s.phase = .ready →
    exec (.getpx x y) s = .next { s with
      resp := some ((s.fb.read (cx s.cfg x + cy s.cfg y / 8 * s.cfg.width) >>> (cy s.cfg y % 8)) &&& 1#8) }

/-- R86 (derived by the spec from R80 and R85): the round trip. -/
def Obligations.PixelRoundTrip : Prop :=
  ∀ (x y : Int) (v : Bool) (s t : State), legal s.cfg = true → s.fb.wf = true → s.phase = .ready →
    exec (.setpx x y v) s = .next t →
    (∃ u, exec (.getpx x y) t = .next u ∧ u.resp = some (if v then 0x01#8 else 0x00#8)) ∧
    (∀ x' y' : Int, (cx s.cfg x', cy s.cfg y') ≠ (cx s.cfg x, cy s.cfg y) →
      ∃ u u', exec (.getpx x' y') s = .next u ∧ exec (.getpx x' y') t = .next u' ∧ u'.resp = u.resp)

/-! ## Regions -/

/-- R101 (derived by the spec from R100): SETRECT with `w >= 1` and `h >= 1` completes and writes `v` to exactly the pixels between the clamped
corners; with the rule's consequences, and its example. -/
def Obligations.SetrectClosedForm : Prop :=
  ∀ (x y w h : Int) (v : Bool) (s : State), legal s.cfg = true → s.fb.wf = true → s.phase = .ready → 1 ≤ w → 1 ≤ h →
    ∃ m, exec (.setrect x y w h v) s = .next { s with fb := m, resp := some 0x00#8 } ∧
      (∀ px py, px < s.cfg.width → py < s.cfg.height → pixel s.cfg m px py =
        if cx s.cfg x ≤ px ∧ px ≤ cx s.cfg (x + w - 1) ∧ cy s.cfg y ≤ py ∧ py ≤ cy s.cfg (y + h - 1) then v
        else pixel s.cfg s.fb px py) ∧
      (∀ a, nbytes s.cfg ≤ a → m.read a = s.fb.read a) ∧
      (x < s.cfg.width → 0 < x + w → y < s.cfg.height → 0 < y + h →
        ∀ px py, px < s.cfg.width → py < s.cfg.height → pixel s.cfg m px py =
          if x ≤ px ∧ px < x + w ∧ y ≤ py ∧ py < y + h then v else pixel s.cfg s.fb px py) ∧
      (s.cfg.width ≤ x → ∀ px py, px < s.cfg.width → py < s.cfg.height → px ≠ s.cfg.width - 1 →
        pixel s.cfg m px py = pixel s.cfg s.fb px py) ∧
      (x + w - 1 < 0 → ∀ px py, px < s.cfg.width → py < s.cfg.height → px ≠ 0 →
        pixel s.cfg m px py = pixel s.cfg s.fb px py) ∧
      (s.cfg.height ≤ y → ∀ px py, px < s.cfg.width → py < s.cfg.height → py ≠ s.cfg.height - 1 →
        pixel s.cfg m px py = pixel s.cfg s.fb px py) ∧
      (y + h - 1 < 0 → ∀ px py, px < s.cfg.width → py < s.cfg.height → py ≠ 0 →
        pixel s.cfg m px py = pixel s.cfg s.fb px py) ∧
      (s.cfg.width = 128 → x = 200 → y = 0 → w = 10 → h = 8 → v = true →
        m.read 127 = 0xFF#8 ∧ ∀ a, a ≠ 127 → m.read a = s.fb.read a)

/-- R100, R56: SETRECT leaves the page RAM of the spec's nested loop of clamped pixel writes. -/
def Obligations.SetrectEqualsNestedLoop : Prop :=
  ∀ (x y w h : Int) (v : Bool) (s : State), legal s.cfg = true → s.fb.wf = true → s.phase = .ready →
    exec (.setrect x y w h v) s = .next { s with
      fb := setrectLoop s.cfg x y w h v s.fb, resp := some 0x00#8 }

/-- R102 (derived by the spec from R100): SETRECT with `w <= 0` or `h <= 0` has no effect on `FB` and responds `OK`. -/
def Obligations.SetrectEmptyWritesNothing : Prop :=
  ∀ (x y w h : Int) (v : Bool) (s : State), s.fb.wf = true → s.phase = .ready → w ≤ 0 ∨ h ≤ 0 →
    exec (.setrect x y w h v) s = .next { s with resp := some 0x00#8 }

/-- R69 with R101 and R102: FILLRECT and CLRRECT complete; FILLRECT sets, and CLRRECT clears, the pixels between the
clamped corners, and nothing else changes. -/
def Obligations.FillrectAndClrrectPaint : Prop :=
  ∀ (x y w h : Int) (s : State), legal s.cfg = true → s.fb.wf = true → s.phase = .ready →
    (∃ m, exec (.fillrect x y w h) s = .next { s with fb := m, resp := some 0x00#8 } ∧
      (∀ px py, px < s.cfg.width → py < s.cfg.height →
        (InClampedRect s.cfg x y w h px py → pixel s.cfg m px py = true) ∧
        (¬InClampedRect s.cfg x y w h px py → pixel s.cfg m px py = pixel s.cfg s.fb px py)) ∧
      (∀ a, nbytes s.cfg ≤ a → m.read a = s.fb.read a)) ∧
    (∃ m, exec (.clrrect x y w h) s = .next { s with fb := m, resp := some 0x00#8 } ∧
      (∀ px py, px < s.cfg.width → py < s.cfg.height →
        (InClampedRect s.cfg x y w h px py → pixel s.cfg m px py = false) ∧
        (¬InClampedRect s.cfg x y w h px py → pixel s.cfg m px py = pixel s.cfg s.fb px py)) ∧
      (∀ a, nbytes s.cfg ≤ a → m.read a = s.fb.read a))

/-- R105, R106: CHKRECT completes; inside the region clipped to the display the cell `(kx, ky)`, counted from the
clipped corner, is set where `kx + ky` is even and clear where it is odd, and nothing outside changes. -/
def Obligations.ChkrectPaintsCheckerboard : Prop :=
  ∀ (x y w h c : Int) (s : State), legal s.cfg = true → s.fb.wf = true → s.phase = .ready →
    let cell := if 1 ≤ c then c else 1
    let x0 := max x 0
    let x1 := min (x + w) s.cfg.width
    let y0 := max y 0
    let y1 := min (y + h) s.cfg.height
    ∃ m, exec (.chkrect x y w h c) s = .next { s with fb := m, resp := some 0x00#8 } ∧
      (∀ px py : Nat, px < s.cfg.width → py < s.cfg.height → pixel s.cfg m px py =
        if x0 ≤ px ∧ px < x1 ∧ y0 ≤ py ∧ py < y1 then
          decide (((px - x0) / cell + (py - y0) / cell) % 2 = 0)
        else pixel s.cfg s.fb px py) ∧
      (∀ a, nbytes s.cfg ≤ a → m.read a = s.fb.read a)

/-- R105: CHKRECT leaves the page RAM of the spec's nested loop. -/
def Obligations.ChkrectEqualsNestedLoop : Prop :=
  ∀ (x y w h c : Int) (s : State), legal s.cfg = true → s.fb.wf = true → s.phase = .ready →
    exec (.chkrect x y w h c) s = .next { s with
      fb := chkrectLoop s.cfg x y w h c s.fb, resp := some 0x00#8 }

/-- R107 (derived by the spec from R105 and R106): the source's 8 x 8 example with `cell_size = 4`, on every display that holds it. -/
def Obligations.CheckerboardExampleBytes : Prop :=
  ∀ s : State, legal s.cfg = true → 8 ≤ s.cfg.width → s.phase = .ready → s.fb = [] →
    ∃ m, exec (.chkrect 0 0 8 8 4) s = .next { s with fb := m, resp := some 0x00#8 } ∧
      ∀ a, m.read a = if a < 4 then 0x0F#8 else if a < 8 then 0xF0#8 else 0x00#8

/-- CLEAR (R110): it completes; every byte of the page RAM becomes `0x00`, and nothing else but the response changes. -/
def Obligations.ClearZeroesPageRam : Prop :=
  ∀ s : State, s.phase = .ready →
    ∃ m, exec .clear s = .next { s with fb := m, resp := some 0x00#8 } ∧
      (∀ i, i < nbytes s.cfg → m.read i = 0x00#8) ∧ (∀ i, nbytes s.cfg ≤ i → m.read i = s.fb.read i) ∧
      (s.fb.within (nbytes s.cfg) = true → m = [])

/-- R111 (derived by the spec from R101 and R110): CLEAR does what `CLRRECT 0, 0, WIDTH, HEIGHT` does, and that is encodable. -/
def Obligations.ClearEqualsClrrectOfDisplay : Prop :=
  ∀ s : State, legal s.cfg = true →
    exec .clear s = exec (.clrrect 0 0 s.cfg.width s.cfg.height) s ∧
    (Instr.clrrect 0 0 s.cfg.width s.cfg.height).wf = true

/-! ## Display control -/

/-- INVERT (R120, R121): it completes; `INV` becomes `v` whatever the sink answers, the one-byte command is emitted
whatever `INV` was, and the answer decides the response. -/
def Obligations.InvertRecordsThenEmits : Prop :=
  ∀ (v : Bool) (s : State), s.phase = .ready →
    exec (.invert v) s = .next { s with
      inv := v
      answers := s.answers.drop 1
      draws := s.draws + 1
      sinkLog := s.sinkLog ++ [.transfer .cmd [if v then s.cfg.opcInvert else s.cfg.opcNormal] (s.answerAt 0)]
      resp := some (if s.answerAt 0 = .ok then 0x00#8 else 0x20#8) }

/-- FLUSH (R125; R126 and R42, which the spec derives): it completes; where the sink accepts, exactly three transfers are offered, the column
window, the page window and the whole page RAM in ascending order, `3 + 3 + NBYTES` bytes, and nothing else changes but
the response. -/
def Obligations.FlushSendsWindowsThenPageRam : Prop :=
  ∀ s : State, s.phase = .ready → s.answerAt 0 = .ok → s.answerAt 1 = .ok → s.answerAt 2 = .ok →
    let column : List Byte := [s.cfg.opcColumnRange, 0x00#8, BitVec.ofNat 8 (s.cfg.width - 1)]
    let page : List Byte := [s.cfg.opcPageRange, 0x00#8, BitVec.ofNat 8 (s.cfg.height / 8 - 1)]
    ∃ bytes : List Byte,
      exec .flush s = .next { s with
        answers := s.answers.drop 3
        draws := s.draws + 3
        sinkLog := s.sinkLog ++ [.transfer .cmd column .ok, .transfer .cmd page .ok, .transfer .data bytes .ok]
        resp := some 0x00#8 } ∧
      bytes.length = nbytes s.cfg ∧ (∀ i, i < nbytes s.cfg → bytes[i]? = some (s.fb.read i)) ∧
      column.length + page.length + bytes.length = 3 + 3 + nbytes s.cfg ∧
      (s.cfg.width = 128 → s.cfg.height = 64 → column.length + page.length + bytes.length = 1030)

/-- R127: at the first transfer the sink refuses, FLUSH offers no later one, responds `SINK_ERROR`, and leaves `FB` and
`INV` unchanged. -/
def Obligations.FlushStopsAtRefusal : Prop :=
  ∀ s : State, s.phase = .ready →
    let column : SinkAnswer → SinkEvent :=
      .transfer .cmd [s.cfg.opcColumnRange, 0x00#8, BitVec.ofNat 8 (s.cfg.width - 1)]
    let page : SinkAnswer → SinkEvent :=
      .transfer .cmd [s.cfg.opcPageRange, 0x00#8, BitVec.ofNat 8 (s.cfg.height / 8 - 1)]
    (s.answerAt 0 = .err → exec .flush s = .next { s with
      answers := s.answers.drop 1, draws := s.draws + 1
      sinkLog := s.sinkLog ++ [column .err], resp := some 0x20#8 }) ∧
    (s.answerAt 0 = .ok → s.answerAt 1 = .err → exec .flush s = .next { s with
      answers := s.answers.drop 2, draws := s.draws + 2
      sinkLog := s.sinkLog ++ [column .ok, page .err], resp := some 0x20#8 }) ∧
    (s.answerAt 0 = .ok → s.answerAt 1 = .ok → s.answerAt 2 = .err → exec .flush s = .next { s with
      answers := s.answers.drop 3, draws := s.draws + 3
      sinkLog := s.sinkLog ++ [column .ok, page .ok, .transfer .data (pageBytes s.cfg s.fb) .err]
      resp := some 0x20#8 })

/-- R128 (derived by the spec from R125): FLUSH writes nothing in the block but `RESP`, whatever the sink answers; what else changes is the sink's. -/
def Obligations.FlushLeavesBlockUnchanged : Prop :=
  ∀ s t : State, exec .flush s = .next t →
    t = { s with resp := t.resp, answers := t.answers, draws := t.draws, sinkLog := t.sinkLog }

/-- R47 (derived by the spec from R45 and R125): two FLUSH commands with no write between them emit the whole stream twice, and it is the same stream. -/
def Obligations.FlushTwiceEmitsTwice : Prop :=
  ∀ s t u : State, s.phase = .ready → (∀ k, k < 6 → s.answerAt k = .ok) → exec .flush s = .next t →
    exec .flush t = .next u →
    ∃ l, l.length = 3 ∧ t.sinkLog = s.sinkLog ++ l ∧ u.sinkLog = s.sinkLog ++ l ++ l
end

