-- ==== Sys2Proof/Laws/Memory.lean ====
section
/-! SUPPORT. The page RAM's laws: reads after writes, and that every operation keeps the canonical form. -/

namespace Sys2Proof.Machine

@[simp] theorem Memory.read_nil (a : Nat) : Memory.read [] a = 0#8 := rfl

theorem Memory.read_cons (b : Nat) (v : Byte) (m : Memory) (a : Nat) :
    Memory.read ((b, v) :: m) a = if a = b then v else Memory.read m a := rfl

theorem Memory.wfFrom_cons {lo a : Nat} {v : Byte} {m : Memory} :
    Memory.wfFrom lo ((a, v) :: m) = true ↔ lo ≤ a ∧ v ≠ 0#8 ∧ Memory.wfFrom (a + 1) m = true := by
  simp [Memory.wfFrom, and_assoc]

/-- A smaller lower bound asks for less. -/
theorem Memory.wfFrom_mono {lo lo' : Nat} (h : lo ≤ lo') {m : Memory} (hm : Memory.wfFrom lo' m = true) :
    Memory.wfFrom lo m = true := by
  match m with
  | [] => rfl
  | (a, v) :: m =>
    obtain ⟨h1, h2⟩ := Memory.wfFrom_cons.1 hm
    exact Memory.wfFrom_cons.2 ⟨Nat.le_trans h h1, h2⟩

/-- Below the lower bound nothing is listed. -/
theorem Memory.read_below {lo a : Nat} {m : Memory} (hm : Memory.wfFrom lo m = true) (ha : a < lo) :
    Memory.read m a = 0#8 := by
  induction m generalizing lo with
  | nil => rfl
  | cons c m ih =>
    obtain ⟨h1, -, h3⟩ := Memory.wfFrom_cons.1 hm
    rw [Memory.read_cons, if_neg (by omega)]
    exact ih h3 (by omega)

theorem Memory.read_entry {a : Nat} {v : Byte} {m : Memory} (hm : Memory.wfFrom (a + 1) m = true) (x : Nat) :
    Memory.read (Memory.entry a v m) x = if x = a then v else Memory.read m x := by
  unfold Memory.entry
  split
  · next hv =>
    split
    · next hx => rw [hx, Memory.read_below hm (by omega), hv]
    · rfl
  · rfl

theorem Memory.wfFrom_entry {lo a : Nat} {v : Byte} {m : Memory} (h : lo ≤ a)
    (hm : Memory.wfFrom (a + 1) m = true) : Memory.wfFrom lo (Memory.entry a v m) = true := by
  unfold Memory.entry
  split
  · exact Memory.wfFrom_mono (by omega) hm
  · next hv => exact Memory.wfFrom_cons.2 ⟨h, hv, hm⟩

/-- A write keeps the canonical form above any bound it respects. -/
theorem Memory.wfFrom_write {lo a : Nat} {v : Byte} {m : Memory} (h : lo ≤ a) (hm : Memory.wfFrom lo m = true) :
    Memory.wfFrom lo (m.write a v) = true := by
  induction m generalizing lo with
  | nil => exact Memory.wfFrom_entry h rfl
  | cons c m ih =>
    obtain ⟨h1, h2, h3⟩ := Memory.wfFrom_cons.1 hm
    unfold Memory.write
    split
    · exact Memory.wfFrom_entry h (Memory.wfFrom_cons.2 ⟨by omega, h2, h3⟩)
    · split
      · next hac => exact Memory.wfFrom_entry h (hac ▸ h3)
      · exact Memory.wfFrom_cons.2 ⟨h1, h2, ih (by omega) h3⟩

/-- A write keeps the canonical form. -/
theorem Memory.wf_write {m : Memory} (hm : m.wf = true) (a : Nat) (v : Byte) : (m.write a v).wf = true :=
  Memory.wfFrom_write (Nat.zero_le a) hm

theorem Memory.read_write_from {lo : Nat} {m : Memory} (hm : Memory.wfFrom lo m = true) (a : Nat) (v : Byte) (x : Nat) :
    (m.write a v).read x = if x = a then v else m.read x := by
  induction m generalizing lo with
  | nil => exact Memory.read_entry rfl x
  | cons c m ih =>
    obtain ⟨h1, h2, h3⟩ := Memory.wfFrom_cons.1 hm
    unfold Memory.write
    split
    · next hac => exact Memory.read_entry (Memory.wfFrom_cons.2 ⟨by omega, h2, h3⟩) x
    · split
      · next hac =>
        rw [Memory.read_entry (hac ▸ h3), Memory.read_cons, ← hac]
        split <;> rfl
      · next hac =>
        rw [Memory.read_cons, Memory.read_cons, ih h3]
        by_cases hx : x = c.1
        · rw [if_pos hx, if_neg (by omega), if_pos hx]
        · rw [if_neg hx, if_neg hx]

/-- A read after a write: the written byte at its address, every other byte as before. -/
theorem Memory.read_write {m : Memory} (hm : m.wf = true) (a : Nat) (v : Byte) (x : Nat) :
    (m.write a v).read x = if x = a then v else m.read x :=
  Memory.read_write_from hm a v x

theorem Memory.read_append_of_lt {m m' : Memory} {x : Nat} (h : ∀ c ∈ m', x < c.1) :
    Memory.read (m ++ m') x = Memory.read m x := by
  induction m with
  | nil =>
    induction m' with
    | nil => rfl
    | cons c m' ih =>
      have hc : x < c.1 := h c (by simp)
      rw [List.nil_append, Memory.read_cons, if_neg (by omega), ← List.nil_append m',
        ih fun d hd => h d (by simp [hd])]
  | cons c m ih => rw [List.cons_append, Memory.read_cons, Memory.read_cons, ih]

theorem Memory.read_append_of_not_mem {m m' : Memory} {x : Nat} (h : ∀ c ∈ m, c.1 ≠ x) :
    Memory.read (m ++ m') x = Memory.read m' x := by
  induction m with
  | nil => rfl
  | cons c m ih =>
    rw [List.cons_append, Memory.read_cons, if_neg fun e => h c (by simp) e.symm]
    exact ih fun d hd => h d (by simp [hd])

theorem Memory.read_filter_of_ge {m : Memory} {n x : Nat} (h : n ≤ x) :
    Memory.read (m.filter fun c => decide (n ≤ c.1)) x = Memory.read m x := by
  induction m with
  | nil => rfl
  | cons c m ih =>
    by_cases hc : n ≤ c.1
    · rw [List.filter_cons_of_pos (by simpa using hc), Memory.read_cons, Memory.read_cons, ih]
    · rw [List.filter_cons_of_neg (by simpa using hc), ih, Memory.read_cons, if_neg (by omega)]

/-- One cell of the list `update` builds. -/
def updateCell (g : Nat → Byte) (i : Nat) : Option Host.Cell := if g i = 0#8 then none else some (i, g i)

theorem Memory.read_filterMap (g : Nat → Byte) (l : List Nat) (x : Nat) :
    Memory.read (l.filterMap (updateCell g)) x = if x ∈ l then g x else 0#8 := by
  induction l with
  | nil => simp
  | cons i l ih =>
    rw [List.filterMap_cons]
    unfold updateCell
    by_cases hg : g i = 0#8
    · simp only [hg, if_true]
      rw [show (fun i => if g i = 0#8 then none else some (i, g i)) = updateCell g from rfl, ih]
      by_cases hx : x = i
      · subst hx; simp [hg]
      · simp [hx]
    · simp only [hg, if_false]
      rw [show (fun i => if g i = 0#8 then none else some (i, g i)) = updateCell g from rfl, Memory.read_cons, ih]
      by_cases hx : x = i
      · subst hx; simp
      · simp [hx]

theorem Memory.mem_filterMap_lt {g : Nat → Byte} {n : Nat} {c : Host.Cell}
    (h : c ∈ (List.range n).filterMap (updateCell g)) : c.1 < n := by
  obtain ⟨i, hi, hc⟩ := List.mem_filterMap.1 h
  unfold updateCell at hc
  split at hc
  · cases hc
  · cases hc
    exact List.mem_range.1 hi

theorem Memory.update_eq (n : Nat) (f : Nat → Byte → Byte) (m : Memory) :
    m.update n f = (List.range n).filterMap (updateCell fun i => f i (m.read i)) ++ m.filter fun c => decide (n ≤ c.1) :=
  rfl

/-- A read after an update: `f` of the byte before, below `n`; the byte before, from `n` on. -/
theorem Memory.read_update (n : Nat) (f : Nat → Byte → Byte) (m : Memory) (x : Nat) :
    (m.update n f).read x = if x < n then f x (m.read x) else m.read x := by
  rw [Memory.update_eq]
  split
  · next hx =>
    rw [Memory.read_append_of_lt, Memory.read_filterMap, if_pos (List.mem_range.2 hx)]
    intro c hc
    have := (List.mem_filter.1 hc).2
    simp at this
    omega
  · next hx =>
    rw [Memory.read_append_of_not_mem, Memory.read_filter_of_ge (by omega)]
    intro c hc
    have := Memory.mem_filterMap_lt hc
    omega

theorem Memory.wfFrom_filter {lo n : Nat} {m : Memory} (hm : Memory.wfFrom lo m = true) :
    Memory.wfFrom (max lo n) (m.filter fun c => decide (n ≤ c.1)) = true := by
  induction m generalizing lo with
  | nil => rfl
  | cons c m ih =>
    obtain ⟨h1, h2, h3⟩ := Memory.wfFrom_cons.1 hm
    by_cases hc : n ≤ c.1
    · rw [List.filter_cons_of_pos (by simpa using hc)]
      exact Memory.wfFrom_cons.2 ⟨by omega, h2, Memory.wfFrom_mono (by omega) (ih h3)⟩
    · rw [List.filter_cons_of_neg (by simpa using hc)]
      exact Memory.wfFrom_mono (by omega) (ih h3)

theorem Memory.wfFrom_filterMap (g : Nat → Byte) (k lo : Nat) {m : Memory} (hm : Memory.wfFrom (lo + k) m = true) :
    Memory.wfFrom lo ((List.range' lo k).filterMap (updateCell g) ++ m) = true := by
  induction k generalizing lo with
  | zero => exact hm
  | succ k ih =>
    have h := ih (lo + 1) (by rw [show lo + 1 + k = lo + (k + 1) by omega]; exact hm)
    rw [List.range'_succ, List.filterMap_cons]
    by_cases hg : g lo = 0#8
    · simp only [updateCell, hg, if_true]
      exact Memory.wfFrom_mono (by omega) h
    · simp only [updateCell, hg, if_false, List.cons_append]
      exact Memory.wfFrom_cons.2 ⟨Nat.le_refl _, hg, h⟩

/-- An update keeps the canonical form. -/
theorem Memory.wf_update {m : Memory} (hm : m.wf = true) (n : Nat) (f : Nat → Byte → Byte) :
    (m.update n f).wf = true := by
  rw [Memory.update_eq, List.range_eq_range']
  refine Memory.wfFrom_filterMap _ n 0 ?_
  have h := Memory.wfFrom_filter (n := n) hm
  simpa using h

@[simp] theorem Memory.wf_nil : Memory.wf [] = true := rfl

/-- Equal reads, equal memories: the canonical form is a normal form. -/
theorem Memory.ext_from {lo : Nat} {m m' : Memory} (hm : Memory.wfFrom lo m = true) (hm' : Memory.wfFrom lo m' = true)
    (h : ∀ a, m.read a = m'.read a) : m = m' := by
  induction m generalizing lo m' with
  | nil =>
    cases m' with
    | nil => rfl
    | cons c m' =>
      obtain ⟨-, h2, -⟩ := Memory.wfFrom_cons.1 hm'
      have := h c.1
      rw [Memory.read_nil, Memory.read_cons, if_pos rfl] at this
      exact absurd this.symm h2
  | cons c m ih =>
    obtain ⟨h1, h2, h3⟩ := Memory.wfFrom_cons.1 hm
    cases m' with
    | nil =>
      have := h c.1
      rw [Memory.read_nil, Memory.read_cons, if_pos rfl] at this
      exact absurd this h2
    | cons d m' =>
      obtain ⟨g1, g2, g3⟩ := Memory.wfFrom_cons.1 hm'
      have hcd : c.1 = d.1 := by
        rcases Nat.lt_trichotomy c.1 d.1 with hlt | heq | hgt
        · have := h c.1
          rw [Memory.read_cons, if_pos rfl, Memory.read_cons, if_neg (by omega),
            Memory.read_below g3 (by omega)] at this
          exact absurd this h2
        · exact heq
        · have := h d.1
          rw [Memory.read_cons, if_neg (by omega), Memory.read_below h3 (by omega), Memory.read_cons,
            if_pos rfl] at this
          exact absurd this.symm g2
      have hv : c.2 = d.2 := by
        have := h c.1
        rwa [Memory.read_cons, if_pos rfl, Memory.read_cons, if_pos hcd] at this
      have htail : m = m' := by
        refine ih h3 (hcd ▸ g3) fun a => ?_
        by_cases ha : a = c.1
        · rw [ha, Memory.read_below h3 (by omega), Memory.read_below g3 (by omega)]
        · have := h a
          rwa [Memory.read_cons, if_neg ha, Memory.read_cons, if_neg (hcd ▸ ha)] at this
      rw [htail, show c = d from Prod.ext hcd hv]

/-- Two canonical memories that read alike are the same data. -/
theorem Memory.ext_read {m m' : Memory} (hm : m.wf = true) (hm' : m'.wf = true)
    (h : ∀ a, m.read a = m'.read a) : m = m' :=
  Memory.ext_from hm hm' h

@[simp] theorem Memory.within_nil (n : Nat) : Memory.within n [] = true := rfl

theorem Memory.within_iff {n : Nat} {m : Memory} : m.within n = true ↔ ∀ c ∈ m, c.1 < n := by
  simp [Memory.within]

/-- A write below `n` lists nothing from `n` on. -/
theorem Memory.within_write {n : Nat} {m : Memory} (hm : m.within n = true) {a : Nat} (ha : a < n) (v : Byte) :
    (m.write a v).within n = true := by
  have hentry : ∀ {m : Memory}, m.within n = true → (Memory.entry a v m).within n = true := by
    intro m hm
    unfold Memory.entry
    split
    · exact hm
    · exact Memory.within_iff.2 fun c hc => by
        rcases List.mem_cons.1 hc with h | h
        · rw [h]; exact ha
        · exact Memory.within_iff.1 hm c h
  induction m with
  | nil => exact hentry rfl
  | cons c m ih =>
    have hrest : Memory.within n m = true :=
      Memory.within_iff.2 fun d hd => Memory.within_iff.1 hm d (List.mem_cons_of_mem _ hd)
    unfold Memory.write
    split
    · exact hentry hm
    · split
      · exact hentry hrest
      · refine Memory.within_iff.2 fun d hd => ?_
        rcases List.mem_cons.1 hd with h | h
        · rw [h]; exact Memory.within_iff.1 hm c (List.mem_cons_self ..)
        · exact Memory.within_iff.1 (ih hrest) d h

/-- An update of the addresses below `n` lists nothing from `n` on that was not listed before. -/
theorem Memory.within_update {n : Nat} {m : Memory} (hm : m.within n = true) (f : Nat → Byte → Byte) :
    (m.update n f).within n = true := by
  rw [Memory.update_eq]
  refine Memory.within_iff.2 fun c hc => ?_
  rcases List.mem_append.1 hc with h | h
  · exact Memory.mem_filterMap_lt h
  · exact Memory.within_iff.1 hm c (List.mem_filter.1 h).1

/-- An address past a bounded memory's end reads as unlisted. -/
theorem Memory.read_of_within {n a : Nat} {m : Memory} (hm : m.within n = true) (ha : n ≤ a) : m.read a = 0#8 := by
  induction m with
  | nil => rfl
  | cons c m ih =>
    have hc : c.1 < n := Memory.within_iff.1 hm c (List.mem_cons_self ..)
    rw [Memory.read_cons, if_neg (by omega)]
    exact ih (Memory.within_iff.2 fun d hd => Memory.within_iff.1 hm d (List.mem_cons_of_mem _ hd))

end Sys2Proof.Machine
end

