-- ==== Sys2Proof/Laws/Pixel.lean ====
section
/-! SUPPORT. Pixels: what a bit write, a pixel write and a painted region do to every pixel, and that the pixels of a
legal block determine its page RAM. -/

namespace Sys2Proof.Machine

/-! ### Parameters -/

/-- The legal parameters, one fact each (R8, R163). -/
theorem legal_iff (c : Config) : legal c = true ↔
    1 ≤ c.width ∧ c.width ≤ 256 ∧ 8 ≤ c.height ∧ c.height ≤ 2040 ∧ c.height % 8 = 0 ∧ ∀ e ∈ c.initTable, e ≠ [] := by
  simp [legal, and_assoc]

theorem legal_width_pos {c : Config} (h : legal c = true) : 0 < c.width := by
  have := (legal_iff c).1 h; omega

theorem legal_height_pos {c : Config} (h : legal c = true) : 0 < c.height := by
  have := (legal_iff c).1 h; omega

/-- `HEIGHT` is eight rows for each page (R7). -/
theorem height_eq_pages {c : Config} (h : legal c = true) : c.height = 8 * npages c := by
  have := (legal_iff c).1 h
  unfold npages
  omega

/-! ### Coordinates (R13, R81) -/

theorem cx_lt {c : Config} (h : legal c = true) (x : Int) : cx c x < c.width := by
  have := legal_width_pos h
  unfold cx clamp
  omega

theorem cy_lt {c : Config} (h : legal c = true) (y : Int) : cy c y < c.height := by
  have := legal_height_pos h
  unfold cy clamp
  omega

/-- A column on the display is not moved. -/
theorem cx_inside {c : Config} {x : Int} (h0 : 0 ≤ x) (h1 : x < c.width) : cx c x = x.toNat := by
  unfold cx clamp
  omega

/-- A row on the display is not moved. -/
theorem cy_inside {c : Config} {y : Int} (h0 : 0 ≤ y) (h1 : y < c.height) : cy c y = y.toNat := by
  unfold cy clamp
  omega

theorem bitIndex_eq (py : Nat) : bitIndex py = py % 8 := Nat.and_two_pow_sub_one_eq_mod py 3

theorem bitIndex_lt (py : Nat) : bitIndex py < 8 := by
  rw [bitIndex_eq]; omega

/-- The column of a pixel's byte (R22). -/
theorem columnOf_byteIndex {c : Config} {px : Nat} (hx : px < c.width) (py : Nat) :
    columnOf c (byteIndex c px py) = px := by
  rw [columnOf, byteIndex, Nat.add_mul_mod_self_right, Nat.mod_eq_of_lt hx]

/-- The page of a pixel's byte (R22). -/
theorem pageOf_byteIndex {c : Config} {px : Nat} (hx : px < c.width) (py : Nat) :
    pageOf c (byteIndex c px py) = py / 8 := by
  have hw : 0 < c.width := by omega
  rw [pageOf, byteIndex, Nat.add_mul_div_right _ _ hw, Nat.div_eq_of_lt hx, Nat.zero_add]

/-- A pixel's byte lies in the page RAM (R20, R21). -/
theorem byteIndex_lt {c : Config} (h : legal c = true) {px py : Nat} (hx : px < c.width) (hy : py < c.height) :
    byteIndex c px py < nbytes c := by
  have hp : py / 8 + 1 ≤ npages c := by
    have := height_eq_pages h
    omega
  have := Nat.mul_le_mul_right c.width hp
  rw [Nat.add_mul, Nat.one_mul] at this
  unfold byteIndex nbytes
  omega

/-- A byte of the page RAM belongs to a page of the display (R49). -/
theorem pageOf_lt {c : Config} {i : Nat} (hi : i < nbytes c) : pageOf c i < npages c :=
  Nat.div_lt_of_lt_mul (by rwa [Nat.mul_comm])

/-- Byte `i` holds the column `columnOf i` of the rows `8 * pageOf i + k` (R22). -/
theorem byteIndex_of_byte (c : Config) (i : Nat) {k : Nat} (hk : k < 8) :
    byteIndex c (columnOf c i) (8 * pageOf c i + k) = i := by
  have : (8 * pageOf c i + k) / 8 = pageOf c i := by omega
  rw [byteIndex, this, columnOf, pageOf, Nat.mul_comm, Nat.mod_add_div]

/-- Two pixels of the display share their byte and bit only if they are the same pixel. -/
theorem pixel_injective {c : Config} {px py qx qy : Nat} (hx : px < c.width) (gx : qx < c.width)
    (hb : byteIndex c qx qy = byteIndex c px py) (hk : bitIndex qy = bitIndex py) : qx = px ∧ qy = py := by
  have h1 : qx = px := by rw [← columnOf_byteIndex gx qy, hb, columnOf_byteIndex hx]
  have h2 : qy / 8 = py / 8 := by rw [← pageOf_byteIndex gx qy, hb, pageOf_byteIndex hx]
  rw [bitIndex_eq, bitIndex_eq] at hk
  exact ⟨h1, by omega⟩

/-! ### Bits of a byte (R44, R80) -/

theorem getLsbD_one_shift {k j : Nat} (hj : j < 8) : (1#8 <<< k).getLsbD j = decide (j = k) := by
  rw [BitVec.getLsbD_shiftLeft]
  by_cases h : j = k
  · subst h; simp [hj]
  · simp [hj, h]
    omega

/-- Writing a bit: that bit, and no other (R44). -/
theorem getLsbD_setBit (b : Byte) {k j : Nat} (hj : j < 8) (v : Bool) :
    (setBit b k v).getLsbD j = if j = k then v else b.getLsbD j := by
  unfold setBit
  cases v
  · rw [show (0xFF#8 : Byte) = BitVec.allOnes 8 from rfl, BitVec.allOnes_sub_eq_not]
    simp only [Bool.false_eq_true, if_false, BitVec.getLsbD_and, BitVec.getLsbD_not, getLsbD_one_shift hj, hj,
      decide_true, Bool.true_and]
    by_cases h : j = k <;> simp [h]
  · simp only [if_true, BitVec.getLsbD_or, getLsbD_one_shift hj]
    by_cases h : j = k <;> simp [h]

/-- Painting a bit: that bit gets the painted value, if any. -/
theorem getLsbD_paintBit (b : Byte) {k j : Nat} (hj : j < 8) (p : Option Bool) :
    (paintBit b k p).getLsbD j = if j = k then p.getD (b.getLsbD j) else b.getLsbD j := by
  cases p with
  | none => simp [paintBit]
  | some v => simp [paintBit, getLsbD_setBit b hj v]

/-- Repainting the bits below `n` of a byte. -/
theorem getLsbD_paint_fold (p : Nat → Option Bool) (b : Byte) (n : Nat) {j : Nat} (hj : j < 8) :
    ((List.range n).foldl (fun acc k => paintBit acc k (p k)) b).getLsbD j
      = if j < n then (p j).getD (b.getLsbD j) else b.getLsbD j := by
  induction n with
  | zero => simp
  | succ n ih =>
    rw [List.range_succ, List.foldl_append, List.foldl_cons, List.foldl_nil, getLsbD_paintBit _ hj, ih]
    by_cases h : j = n
    · subst h; simp
    · simp [h, show j < n + 1 ↔ j < n by omega]

/-- Bit `j` of a repainted byte is its pixel's new value, or its old one (R22). -/
theorem getLsbD_paintByte (c : Config) (paint : Nat → Nat → Option Bool) (i : Nat) (b : Byte) {j : Nat} (hj : j < 8) :
    (paintByte c paint i b).getLsbD j = (paint (columnOf c i) (8 * pageOf c i + j)).getD (b.getLsbD j) := by
  unfold paintByte
  rw [getLsbD_paint_fold (fun k => paint (columnOf c i) (8 * pageOf c i + k)) b 8 hj, if_pos hj]

/-! ### Pixels of the page RAM (R21, R80, R85) -/

/-- The bytes a pixel write changes: its own. -/
theorem read_writePixel (c : Config) {m : Memory} (hm : m.wf = true) (px py : Nat) (v : Bool) (a : Nat) :
    (writePixel c px py v m).read a
      = if a = byteIndex c px py then setBit (m.read (byteIndex c px py)) (bitIndex py) v else m.read a :=
  Memory.read_write hm _ _ a

/-- The pixels a pixel write changes: its own (R80). -/
theorem pixel_writePixel {c : Config} {m : Memory} (hm : m.wf = true) {px py qx qy : Nat} (hx : px < c.width)
    (gx : qx < c.width) (v : Bool) :
    pixel c (writePixel c px py v m) qx qy = if qx = px ∧ qy = py then v else pixel c m qx qy := by
  unfold pixel
  rw [read_writePixel c hm]
  split
  · next hb =>
    rw [getLsbD_setBit _ (bitIndex_lt qy), hb]
    by_cases hk : bitIndex qy = bitIndex py
    · rw [if_pos hk, if_pos (pixel_injective hx gx hb hk)]
    · rw [if_neg hk, if_neg fun h => hk (by rw [h.2])]
  · next hb => rw [if_neg fun h => hb (by rw [h.1, h.2])]

theorem wf_writePixel {m : Memory} (hm : m.wf = true) (c : Config) (px py : Nat) (v : Bool) :
    (writePixel c px py v m).wf = true :=
  Memory.wf_write hm _ _

theorem within_writePixel {c : Config} (h : legal c = true) {m : Memory} (hm : m.within (nbytes c) = true)
    {px py : Nat} (hx : px < c.width) (hy : py < c.height) (v : Bool) :
    (writePixel c px py v m).within (nbytes c) = true :=
  Memory.within_write hm (byteIndex_lt h hx hy) _

/-- The bytes painting a region changes: those of the page RAM, each as its pixels say. -/
theorem read_paintAll (c : Config) (paint : Nat → Nat → Option Bool) (m : Memory) (a : Nat) :
    (paintAll c paint m).read a = if a < nbytes c then paintByte c paint a (m.read a) else m.read a :=
  Memory.read_update ..

/-- Every pixel of the display after painting: the painted value, or the pixel before. -/
theorem pixel_paintAll {c : Config} (h : legal c = true) (paint : Nat → Nat → Option Bool) (m : Memory) {qx qy : Nat}
    (gx : qx < c.width) (gy : qy < c.height) :
    pixel c (paintAll c paint m) qx qy = (paint qx qy).getD (pixel c m qx qy) := by
  unfold pixel
  rw [read_paintAll, if_pos (byteIndex_lt h gx gy), getLsbD_paintByte _ _ _ _ (bitIndex_lt qy),
    columnOf_byteIndex gx, pageOf_byteIndex gx, bitIndex_eq]
  have : 8 * (qy / 8) + qy % 8 = qy := by omega
  rw [this]

theorem wf_paintAll {m : Memory} (hm : m.wf = true) (c : Config) (paint : Nat → Nat → Option Bool) :
    (paintAll c paint m).wf = true :=
  Memory.wf_update hm _ _

theorem within_paintAll {c : Config} {m : Memory} (hm : m.within (nbytes c) = true)
    (paint : Nat → Nat → Option Bool) : (paintAll c paint m).within (nbytes c) = true :=
  Memory.within_update hm _

/-- The pixels of a legal block determine every byte of its page RAM (R20-R22). -/
theorem read_of_pixels {c : Config} (h : legal c = true) {m m' : Memory}
    (hp : ∀ qx qy, qx < c.width → qy < c.height → pixel c m qx qy = pixel c m' qx qy) {a : Nat} (ha : a < nbytes c) :
    m.read a = m'.read a := by
  refine BitVec.eq_of_getLsbD_eq fun k hk => ?_
  have hw := legal_width_pos h
  have hrow : 8 * pageOf c a + k < c.height := by
    have := pageOf_lt ha
    have := height_eq_pages h
    omega
  have := hp (columnOf c a) (8 * pageOf c a + k) (Nat.mod_lt _ hw) hrow
  unfold pixel at this
  rwa [byteIndex_of_byte c a hk, bitIndex_eq, show (8 * pageOf c a + k) % 8 = k by omega] at this

/-- Canonical page RAMs with the same pixels, and the same bytes past the display's, are the same data. -/
theorem ext_pixels {c : Config} (h : legal c = true) {m m' : Memory} (hm : m.wf = true) (hm' : m'.wf = true)
    (hp : ∀ qx qy, qx < c.width → qy < c.height → pixel c m qx qy = pixel c m' qx qy)
    (ho : ∀ a, nbytes c ≤ a → m.read a = m'.read a) : m = m' :=
  Memory.ext_read hm hm' fun a => by
    rcases Nat.lt_or_ge a (nbytes c) with ha | ha
    · exact read_of_pixels h hp ha
    · exact ho a ha

end Sys2Proof.Machine
end

