-- ==== Sys2Proof/Laws/State.lean ====
section
/-! SUPPORT. One lemma per field per named update of State, each true by rfl. -/

namespace Sys2Proof.Machine

/-! ### tick -/

@[simp] theorem State.tick_cfg (s : State) : s.tick.cfg = s.cfg := rfl
@[simp] theorem State.tick_fb (s : State) : s.tick.fb = s.fb := rfl
@[simp] theorem State.tick_inv (s : State) : s.tick.inv = s.inv := rfl
@[simp] theorem State.tick_phase (s : State) : s.tick.phase = s.phase := rfl
@[simp] theorem State.tick_rstOut (s : State) : s.tick.rstOut = s.rstOut := rfl
@[simp] theorem State.tick_busy (s : State) : s.tick.busy = s.busy := rfl
@[simp] theorem State.tick_resp (s : State) : s.tick.resp = s.resp := rfl
@[simp] theorem State.tick_pos (s : State) : s.tick.pos = s.pos := rfl
@[simp] theorem State.tick_started (s : State) : s.tick.started = s.started := rfl
@[simp] theorem State.tick_resetIn (s : State) : s.tick.resetIn = s.resetIn := rfl
@[simp] theorem State.tick_port (s : State) : s.tick.port = s.port := rfl
@[simp] theorem State.tick_respReady (s : State) : s.tick.respReady = s.respReady := rfl
@[simp] theorem State.tick_agenda (s : State) : s.tick.agenda = s.agenda.tail := rfl
@[simp] theorem State.tick_answers (s : State) : s.tick.answers = s.answers := rfl
@[simp] theorem State.tick_draws (s : State) : s.tick.draws = s.draws := rfl
@[simp] theorem State.tick_sinkLog (s : State) : s.tick.sinkLog = s.sinkLog := rfl
@[simp] theorem State.tick_taken (s : State) : s.tick.taken = s.taken := rfl

/-! ### accept -/

@[simp] theorem State.accept_cfg (s : State) : s.accept.cfg = s.cfg := rfl
@[simp] theorem State.accept_fb (s : State) : s.accept.fb = s.fb := rfl
@[simp] theorem State.accept_inv (s : State) : s.accept.inv = s.inv := rfl
@[simp] theorem State.accept_phase (s : State) : s.accept.phase = s.phase := rfl
@[simp] theorem State.accept_rstOut (s : State) : s.accept.rstOut = s.rstOut := rfl
@[simp] theorem State.accept_busy (s : State) : s.accept.busy = true := rfl
@[simp] theorem State.accept_resp (s : State) : s.accept.resp = s.resp := rfl
@[simp] theorem State.accept_pos (s : State) : s.accept.pos = s.pos + 1 := rfl
@[simp] theorem State.accept_started (s : State) : s.accept.started = s.started := rfl
@[simp] theorem State.accept_resetIn (s : State) : s.accept.resetIn = s.resetIn := rfl
@[simp] theorem State.accept_port (s : State) : s.accept.port = s.port.tail := rfl
@[simp] theorem State.accept_respReady (s : State) : s.accept.respReady = s.respReady := rfl
@[simp] theorem State.accept_agenda (s : State) : s.accept.agenda = s.agenda := rfl
@[simp] theorem State.accept_answers (s : State) : s.accept.answers = s.answers := rfl
@[simp] theorem State.accept_draws (s : State) : s.accept.draws = s.draws := rfl
@[simp] theorem State.accept_sinkLog (s : State) : s.accept.sinkLog = s.sinkLog := rfl
@[simp] theorem State.accept_taken (s : State) : s.accept.taken = s.taken := rfl

/-! ### takeResponse -/

@[simp] theorem State.takeResponse_cfg (s : State) (r : Byte) : (s.takeResponse r).cfg = s.cfg := rfl
@[simp] theorem State.takeResponse_fb (s : State) (r : Byte) : (s.takeResponse r).fb = s.fb := rfl
@[simp] theorem State.takeResponse_inv (s : State) (r : Byte) : (s.takeResponse r).inv = s.inv := rfl
@[simp] theorem State.takeResponse_phase (s : State) (r : Byte) : (s.takeResponse r).phase = s.phase := rfl
@[simp] theorem State.takeResponse_rstOut (s : State) (r : Byte) : (s.takeResponse r).rstOut = s.rstOut := rfl
@[simp] theorem State.takeResponse_busy (s : State) (r : Byte) : (s.takeResponse r).busy = false := rfl
@[simp] theorem State.takeResponse_resp (s : State) (r : Byte) : (s.takeResponse r).resp = none := rfl
@[simp] theorem State.takeResponse_pos (s : State) (r : Byte) : (s.takeResponse r).pos = s.pos := rfl
@[simp] theorem State.takeResponse_started (s : State) (r : Byte) : (s.takeResponse r).started = s.started := rfl
@[simp] theorem State.takeResponse_resetIn (s : State) (r : Byte) : (s.takeResponse r).resetIn = s.resetIn := rfl
@[simp] theorem State.takeResponse_port (s : State) (r : Byte) : (s.takeResponse r).port = s.port := rfl
@[simp] theorem State.takeResponse_respReady (s : State) (r : Byte) : (s.takeResponse r).respReady = s.respReady := rfl
@[simp] theorem State.takeResponse_agenda (s : State) (r : Byte) : (s.takeResponse r).agenda = s.agenda := rfl
@[simp] theorem State.takeResponse_answers (s : State) (r : Byte) : (s.takeResponse r).answers = s.answers := rfl
@[simp] theorem State.takeResponse_draws (s : State) (r : Byte) : (s.takeResponse r).draws = s.draws := rfl
@[simp] theorem State.takeResponse_sinkLog (s : State) (r : Byte) : (s.takeResponse r).sinkLog = s.sinkLog := rfl
@[simp] theorem State.takeResponse_taken (s : State) (r : Byte) : (s.takeResponse r).taken = s.taken ++ [r] := rfl

/-! ### respond -/

@[simp] theorem State.respond_cfg (s : State) (st : Status) (pix : Bool) : (s.respond st pix).cfg = s.cfg := rfl
@[simp] theorem State.respond_fb (s : State) (st : Status) (pix : Bool) : (s.respond st pix).fb = s.fb := rfl
@[simp] theorem State.respond_inv (s : State) (st : Status) (pix : Bool) : (s.respond st pix).inv = s.inv := rfl
@[simp] theorem State.respond_phase (s : State) (st : Status) (pix : Bool) : (s.respond st pix).phase = s.phase := rfl
@[simp] theorem State.respond_rstOut (s : State) (st : Status) (pix : Bool) : (s.respond st pix).rstOut = s.rstOut := rfl
@[simp] theorem State.respond_busy (s : State) (st : Status) (pix : Bool) : (s.respond st pix).busy = s.busy := rfl
@[simp] theorem State.respond_resp (s : State) (st : Status) (pix : Bool) : (s.respond st pix).resp = some (responseByte st pix) := rfl
@[simp] theorem State.respond_pos (s : State) (st : Status) (pix : Bool) : (s.respond st pix).pos = s.pos := rfl
@[simp] theorem State.respond_started (s : State) (st : Status) (pix : Bool) : (s.respond st pix).started = s.started := rfl
@[simp] theorem State.respond_resetIn (s : State) (st : Status) (pix : Bool) : (s.respond st pix).resetIn = s.resetIn := rfl
@[simp] theorem State.respond_port (s : State) (st : Status) (pix : Bool) : (s.respond st pix).port = s.port := rfl
@[simp] theorem State.respond_respReady (s : State) (st : Status) (pix : Bool) : (s.respond st pix).respReady = s.respReady := rfl
@[simp] theorem State.respond_agenda (s : State) (st : Status) (pix : Bool) : (s.respond st pix).agenda = s.agenda := rfl
@[simp] theorem State.respond_answers (s : State) (st : Status) (pix : Bool) : (s.respond st pix).answers = s.answers := rfl
@[simp] theorem State.respond_draws (s : State) (st : Status) (pix : Bool) : (s.respond st pix).draws = s.draws := rfl
@[simp] theorem State.respond_sinkLog (s : State) (st : Status) (pix : Bool) : (s.respond st pix).sinkLog = s.sinkLog := rfl
@[simp] theorem State.respond_taken (s : State) (st : Status) (pix : Bool) : (s.respond st pix).taken = s.taken := rfl

/-! ### raiseError -/

@[simp] theorem State.raiseError_cfg (s : State) (st : Status) : (s.raiseError st).cfg = s.cfg := rfl
@[simp] theorem State.raiseError_fb (s : State) (st : Status) : (s.raiseError st).fb = s.fb := rfl
@[simp] theorem State.raiseError_inv (s : State) (st : Status) : (s.raiseError st).inv = s.inv := rfl
@[simp] theorem State.raiseError_phase (s : State) (st : Status) : (s.raiseError st).phase = s.phase := rfl
@[simp] theorem State.raiseError_rstOut (s : State) (st : Status) : (s.raiseError st).rstOut = s.rstOut := rfl
@[simp] theorem State.raiseError_busy (s : State) (st : Status) : (s.raiseError st).busy = s.busy := rfl
@[simp] theorem State.raiseError_resp (s : State) (st : Status) : (s.raiseError st).resp = some (responseByte st false) := rfl
@[simp] theorem State.raiseError_pos (s : State) (st : Status) : (s.raiseError st).pos = s.pos := rfl
@[simp] theorem State.raiseError_started (s : State) (st : Status) : (s.raiseError st).started = s.started := rfl
@[simp] theorem State.raiseError_resetIn (s : State) (st : Status) : (s.raiseError st).resetIn = s.resetIn := rfl
@[simp] theorem State.raiseError_port (s : State) (st : Status) : (s.raiseError st).port = s.port := rfl
@[simp] theorem State.raiseError_respReady (s : State) (st : Status) : (s.raiseError st).respReady = s.respReady := rfl
@[simp] theorem State.raiseError_agenda (s : State) (st : Status) : (s.raiseError st).agenda = s.agenda := rfl
@[simp] theorem State.raiseError_answers (s : State) (st : Status) : (s.raiseError st).answers = s.answers := rfl
@[simp] theorem State.raiseError_draws (s : State) (st : Status) : (s.raiseError st).draws = s.draws := rfl
@[simp] theorem State.raiseError_sinkLog (s : State) (st : Status) : (s.raiseError st).sinkLog = s.sinkLog := rfl
@[simp] theorem State.raiseError_taken (s : State) (st : Status) : (s.raiseError st).taken = s.taken := rfl

/-! ### emit -/

@[simp] theorem State.emit_cfg (s : State) (kind : TransferKind) (bytes : List Byte) : (s.emit kind bytes).cfg = s.cfg := rfl
@[simp] theorem State.emit_fb (s : State) (kind : TransferKind) (bytes : List Byte) : (s.emit kind bytes).fb = s.fb := rfl
@[simp] theorem State.emit_inv (s : State) (kind : TransferKind) (bytes : List Byte) : (s.emit kind bytes).inv = s.inv := rfl
@[simp] theorem State.emit_phase (s : State) (kind : TransferKind) (bytes : List Byte) : (s.emit kind bytes).phase = s.phase := rfl
@[simp] theorem State.emit_rstOut (s : State) (kind : TransferKind) (bytes : List Byte) : (s.emit kind bytes).rstOut = s.rstOut := rfl
@[simp] theorem State.emit_busy (s : State) (kind : TransferKind) (bytes : List Byte) : (s.emit kind bytes).busy = s.busy := rfl
@[simp] theorem State.emit_resp (s : State) (kind : TransferKind) (bytes : List Byte) : (s.emit kind bytes).resp = s.resp := rfl
@[simp] theorem State.emit_pos (s : State) (kind : TransferKind) (bytes : List Byte) : (s.emit kind bytes).pos = s.pos := rfl
@[simp] theorem State.emit_started (s : State) (kind : TransferKind) (bytes : List Byte) : (s.emit kind bytes).started = s.started := rfl
@[simp] theorem State.emit_resetIn (s : State) (kind : TransferKind) (bytes : List Byte) : (s.emit kind bytes).resetIn = s.resetIn := rfl
@[simp] theorem State.emit_port (s : State) (kind : TransferKind) (bytes : List Byte) : (s.emit kind bytes).port = s.port := rfl
@[simp] theorem State.emit_respReady (s : State) (kind : TransferKind) (bytes : List Byte) : (s.emit kind bytes).respReady = s.respReady := rfl
@[simp] theorem State.emit_agenda (s : State) (kind : TransferKind) (bytes : List Byte) : (s.emit kind bytes).agenda = s.agenda := rfl
@[simp] theorem State.emit_answers (s : State) (kind : TransferKind) (bytes : List Byte) : (s.emit kind bytes).answers = s.answers.tail := rfl
@[simp] theorem State.emit_draws (s : State) (kind : TransferKind) (bytes : List Byte) : (s.emit kind bytes).draws = s.draws + 1 := rfl
@[simp] theorem State.emit_sinkLog (s : State) (kind : TransferKind) (bytes : List Byte) : (s.emit kind bytes).sinkLog = s.sinkLog ++ [.transfer kind bytes s.nextAnswer] := rfl
@[simp] theorem State.emit_taken (s : State) (kind : TransferKind) (bytes : List Byte) : (s.emit kind bytes).taken = s.taken := rfl

/-! ### offerPin -/

@[simp] theorem State.offerPin_cfg (s : State) (level : Bool) : (s.offerPin level).cfg = s.cfg := rfl
@[simp] theorem State.offerPin_fb (s : State) (level : Bool) : (s.offerPin level).fb = s.fb := rfl
@[simp] theorem State.offerPin_inv (s : State) (level : Bool) : (s.offerPin level).inv = s.inv := rfl
@[simp] theorem State.offerPin_phase (s : State) (level : Bool) : (s.offerPin level).phase = s.phase := rfl
@[simp] theorem State.offerPin_rstOut (s : State) (level : Bool) : (s.offerPin level).rstOut = s.rstOut := rfl
@[simp] theorem State.offerPin_busy (s : State) (level : Bool) : (s.offerPin level).busy = s.busy := rfl
@[simp] theorem State.offerPin_resp (s : State) (level : Bool) : (s.offerPin level).resp = s.resp := rfl
@[simp] theorem State.offerPin_pos (s : State) (level : Bool) : (s.offerPin level).pos = s.pos := rfl
@[simp] theorem State.offerPin_started (s : State) (level : Bool) : (s.offerPin level).started = s.started := rfl
@[simp] theorem State.offerPin_resetIn (s : State) (level : Bool) : (s.offerPin level).resetIn = s.resetIn := rfl
@[simp] theorem State.offerPin_port (s : State) (level : Bool) : (s.offerPin level).port = s.port := rfl
@[simp] theorem State.offerPin_respReady (s : State) (level : Bool) : (s.offerPin level).respReady = s.respReady := rfl
@[simp] theorem State.offerPin_agenda (s : State) (level : Bool) : (s.offerPin level).agenda = s.agenda := rfl
@[simp] theorem State.offerPin_answers (s : State) (level : Bool) : (s.offerPin level).answers = s.answers.tail := rfl
@[simp] theorem State.offerPin_draws (s : State) (level : Bool) : (s.offerPin level).draws = s.draws + 1 := rfl
@[simp] theorem State.offerPin_sinkLog (s : State) (level : Bool) : (s.offerPin level).sinkLog = s.sinkLog ++ [.pin level s.nextAnswer] := rfl
@[simp] theorem State.offerPin_taken (s : State) (level : Bool) : (s.offerPin level).taken = s.taken := rfl

/-! ### beginReset -/

@[simp] theorem State.beginReset_cfg (s : State) : s.beginReset.cfg = s.cfg := rfl
@[simp] theorem State.beginReset_fb (s : State) : s.beginReset.fb = [] := rfl
@[simp] theorem State.beginReset_inv (s : State) : s.beginReset.inv = false := rfl
@[simp] theorem State.beginReset_phase (s : State) : s.beginReset.phase = .reset .assertPin := rfl
@[simp] theorem State.beginReset_rstOut (s : State) : s.beginReset.rstOut = s.rstOut := rfl
@[simp] theorem State.beginReset_busy (s : State) : s.beginReset.busy = false := rfl
@[simp] theorem State.beginReset_resp (s : State) : s.beginReset.resp = none := rfl
@[simp] theorem State.beginReset_pos (s : State) : s.beginReset.pos = s.pos := rfl
@[simp] theorem State.beginReset_started (s : State) : s.beginReset.started = true := rfl
@[simp] theorem State.beginReset_resetIn (s : State) : s.beginReset.resetIn = false := rfl
@[simp] theorem State.beginReset_port (s : State) : s.beginReset.port = s.port := rfl
@[simp] theorem State.beginReset_respReady (s : State) : s.beginReset.respReady = s.respReady := rfl
@[simp] theorem State.beginReset_agenda (s : State) : s.beginReset.agenda = s.agenda := rfl
@[simp] theorem State.beginReset_answers (s : State) : s.beginReset.answers = s.answers := rfl
@[simp] theorem State.beginReset_draws (s : State) : s.beginReset.draws = s.draws := rfl
@[simp] theorem State.beginReset_sinkLog (s : State) : s.beginReset.sinkLog = s.sinkLog := rfl
@[simp] theorem State.beginReset_taken (s : State) : s.beginReset.taken = s.taken := rfl

end Sys2Proof.Machine
end

