-- ==== Sys2Proof/Laws/Effects.lean ====
section
/-! SUPPORT. What the shared operations of a command can do: the sink's answers, a run of effects, and a command's
response. -/

namespace Sys2Proof.Machine

/-! ### Answers (R45, R46) -/

theorem State.nextAnswer_eq (s : State) : s.nextAnswer = s.answerAt 0 := by
  unfold State.nextAnswer State.answerAt
  cases s.answers <;> rfl

/-- A transfer uses one answer up. -/
theorem State.emit_answerAt (s : State) (kind : TransferKind) (bytes : List Byte) (k : Nat) :
    (s.emit kind bytes).answerAt k = s.answerAt (k + 1) := by
  unfold State.answerAt
  rw [State.emit_answers, State.emit_draws, show s.draws + 1 + k = s.draws + (k + 1) by omega]
  cases s.answers <;> rfl

/-- So does a pin write. -/
theorem State.offerPin_answerAt (s : State) (level : Bool) (k : Nat) :
    (s.offerPin level).answerAt k = s.answerAt (k + 1) := by
  unfold State.answerAt
  rw [State.offerPin_answers, State.offerPin_draws, show s.draws + 1 + k = s.draws + (k + 1) by omega]
  cases s.answers <;> rfl

/-! ### Effects (R48) -/

/-- An effect touches the page RAM, `INV` and the sink, and nothing else. -/
theorem State.applyEffect_frame (s : State) (e : Effect) :
    s.applyEffect e = { s with
      fb := (s.applyEffect e).fb, inv := (s.applyEffect e).inv, answers := (s.applyEffect e).answers
      draws := (s.applyEffect e).draws, sinkLog := (s.applyEffect e).sinkLog } := by
  cases e <;> rfl

theorem State.runEffects_nil (s : State) : s.runEffects [] = (s, .ok) := rfl

theorem State.runEffects_cons (s : State) (e : Effect) (es : List Effect) :
    s.runEffects (e :: es) = match s.effectAnswer e with
      | .ok => (s.applyEffect e).runEffects es
      | .err => (s.applyEffect e, .err) := rfl

/-- An accepted effect leads to the rest. -/
theorem State.runEffects_cons_ok {s : State} {e : Effect} (h : s.effectAnswer e = .ok) (es : List Effect) :
    s.runEffects (e :: es) = (s.applyEffect e).runEffects es := by
  rw [State.runEffects_cons, h]

/-- A refused transfer ends the run (R127). -/
theorem State.runEffects_cons_err {s : State} {e : Effect} (h : s.effectAnswer e = .err) (es : List Effect) :
    s.runEffects (e :: es) = (s.applyEffect e, .err) := by
  rw [State.runEffects_cons, h]

/-- A run of effects keeps every property that each of its effects keeps. -/
theorem State.runEffects_keeps {P : State → Prop} {es : List Effect}
    (step : ∀ e ∈ es, ∀ s, P s → P (s.applyEffect e)) {s : State} (h : P s) : P (s.runEffects es).1 := by
  induction es generalizing s with
  | nil => exact h
  | cons e es ih =>
    have he : P (s.applyEffect e) := step e (List.mem_cons_self ..) s h
    rw [State.runEffects_cons]
    split
    · exact ih (fun d hd => step d (List.mem_cons_of_mem _ hd)) he
    · exact he

/-- A run of effects touches the page RAM, `INV` and the sink, and nothing else. -/
theorem State.runEffects_frame (s : State) (es : List Effect) :
    (s.runEffects es).1 = { s with
      fb := (s.runEffects es).1.fb, inv := (s.runEffects es).1.inv, answers := (s.runEffects es).1.answers
      draws := (s.runEffects es).1.draws, sinkLog := (s.runEffects es).1.sinkLog } := by
  refine State.runEffects_keeps
    (P := fun t => t = { s with
      fb := t.fb, inv := t.inv, answers := t.answers, draws := t.draws, sinkLog := t.sinkLog }) ?_ rfl
  intro e _ t ht
  rw [State.applyEffect_frame t e]
  rw [ht]

/-- The fields a run of effects leaves alone, one fact each. -/
theorem State.runEffects_fields (s : State) (es : List Effect) :
    (s.runEffects es).1.cfg = s.cfg ∧ (s.runEffects es).1.phase = s.phase ∧ (s.runEffects es).1.rstOut = s.rstOut ∧
    (s.runEffects es).1.busy = s.busy ∧ (s.runEffects es).1.resp = s.resp ∧ (s.runEffects es).1.pos = s.pos ∧
    (s.runEffects es).1.started = s.started ∧ (s.runEffects es).1.resetIn = s.resetIn ∧
    (s.runEffects es).1.port = s.port ∧ (s.runEffects es).1.respReady = s.respReady ∧
    (s.runEffects es).1.agenda = s.agenda ∧ (s.runEffects es).1.taken = s.taken := by
  rw [State.runEffects_frame]
  exact ⟨rfl, rfl, rfl, rfl, rfl, rfl, rfl, rfl, rfl, rfl, rfl, rfl⟩

/-- A store of a page RAM in canonical form and inside `NBYTES`, a write of a pixel of the display or of a byte of the
page RAM; any other effect. -/
def GoodEffect (c : Config) (e : Effect) : Prop :=
  match e with
  | .store m => m.wf = true ∧ m.within (nbytes c) = true
  | .writePixel px py _ => px < c.width ∧ py < c.height
  | .writeByte i _ => i < nbytes c
  | .setInv _ => True
  | .emit _ _ => True

/-- A run of good effects keeps the page RAM canonical and bounded. -/
theorem State.runEffects_good {s : State} {es : List Effect} (hl : legal s.cfg = true)
    (hg : ∀ e ∈ es, GoodEffect s.cfg e) (hm : s.fb.wf = true) (hb : s.fb.within (nbytes s.cfg) = true) :
    (s.runEffects es).1.fb.wf = true ∧ (s.runEffects es).1.fb.within (nbytes s.cfg) = true := by
  refine (State.runEffects_keeps
    (P := fun t => t.cfg = s.cfg ∧ t.fb.wf = true ∧ t.fb.within (nbytes s.cfg) = true) ?_ ⟨rfl, hm, hb⟩).2
  rintro e he t ⟨hc, hw, hn⟩
  cases e with
  | store m => exact ⟨hc, hg _ he⟩
  | writePixel px py v =>
    refine ⟨hc, wf_writePixel hw .., ?_⟩
    unfold State.applyEffect
    rw [hc]
    exact within_writePixel hl hn (hg _ he).1 (hg _ he).2 v
  | writeByte i v => exact ⟨hc, Memory.wf_write hw .., Memory.within_write hn (hg _ he) v⟩
  | setInv v => exact ⟨hc, hw, hn⟩
  | emit kind bytes => exact ⟨hc, hw, hn⟩

/-- What has been offered to the sink stays offered: an effect only adds to the log (R50). -/
theorem State.applyEffect_sinkLog (s : State) (e : Effect) : ∃ l, (s.applyEffect e).sinkLog = s.sinkLog ++ l := by
  cases e with
  | store m => exact ⟨[], (List.append_nil _).symm⟩
  | writePixel px py v => exact ⟨[], (List.append_nil _).symm⟩
  | writeByte i v => exact ⟨[], (List.append_nil _).symm⟩
  | setInv v => exact ⟨[], (List.append_nil _).symm⟩
  | emit kind bytes => exact ⟨_, rfl⟩

/-- A run of effects only adds to the log. -/
theorem State.runEffects_sinkLog (s : State) (es : List Effect) :
    ∃ l, (s.runEffects es).1.sinkLog = s.sinkLog ++ l := by
  refine State.runEffects_keeps (P := fun t => ∃ l, t.sinkLog = s.sinkLog ++ l) ?_ ⟨[], (List.append_nil _).symm⟩
  rintro e - t ⟨l, hl⟩
  obtain ⟨l', hl'⟩ := State.applyEffect_sinkLog t e
  exact ⟨l ++ l', by rw [hl', hl, List.append_assoc]⟩

/-- Effects of which none can be refused all happen. -/
theorem State.runEffects_of_ok {s : State} {es : List Effect} (h : ∀ e ∈ es, ∀ t : State, t.effectAnswer e = .ok) :
    s.runEffects es = (es.foldl State.applyEffect s, .ok) := by
  induction es generalizing s with
  | nil => rfl
  | cons e es ih =>
    rw [State.runEffects_cons_ok (h e (List.mem_cons_self ..) s)]
    exact ih fun d hd => h d (List.mem_cons_of_mem _ hd)

/-- Effects after effects: where the first ones are all accepted, the others follow. -/
theorem State.runEffects_append_ok {s : State} {es : List Effect} (h : (s.runEffects es).2 = .ok) (ds : List Effect) :
    s.runEffects (es ++ ds) = (s.runEffects es).1.runEffects ds := by
  induction es generalizing s with
  | nil => rfl
  | cons e es ih =>
    rw [State.runEffects_cons] at h
    rw [List.cons_append, State.runEffects_cons, State.runEffects_cons]
    cases ha : s.effectAnswer e with
    | ok => simp only [ha] at h ⊢; exact ih h
    | err => simp only [ha, reduceCtorEq] at h

/-- Where one of the first effects is refused, the others never happen (R127). -/
theorem State.runEffects_append_err {s : State} {es : List Effect} (h : (s.runEffects es).2 = .err) (ds : List Effect) :
    s.runEffects (es ++ ds) = s.runEffects es := by
  induction es generalizing s with
  | nil => cases h
  | cons e es ih =>
    rw [State.runEffects_cons] at h
    rw [List.cons_append, State.runEffects_cons, State.runEffects_cons]
    cases ha : s.effectAnswer e with
    | ok => simp only [ha] at h ⊢; exact ih h
    | err => rfl

/-- The one run of a drawing command: its page RAM, and no transfer that could be refused. -/
theorem State.runEffects_store (s : State) (m : Memory) : s.runEffects [.store m] = ({ s with fb := m }, .ok) := rfl

/-! ### Commands (R140, R142, R145) -/

/-- In `READY` a command runs to its response. -/
theorem execute_ready {s : State} (h : s.phase = .ready) (es : List Effect) (pix : Bool) :
    execute es pix s = .next (s.complete es pix) := by
  unfold execute State.perform
  rw [h]

/-- In `FAILED` a command is answered `NOT_READY` and has no effect (R142). -/
theorem execute_failed {s : State} (h : s.phase = .failed) (es : List Effect) (pix : Bool) :
    execute es pix s = .next (s.raiseError .notReady) := by
  unfold execute State.perform
  rw [h]

/-- A completed command's two outcomes (R140, R144). -/
theorem State.complete_cases (s : State) (es : List Effect) (pix : Bool) :
    ((s.runEffects es).2 = .ok ∧ s.complete es pix = (s.runEffects es).1.respond .ok pix) ∨
    ((s.runEffects es).2 = .err ∧ s.complete es pix = (s.runEffects es).1.raiseError .sinkError) := by
  unfold State.complete
  cases (s.runEffects es).2
  · exact .inl ⟨rfl, rfl⟩
  · exact .inr ⟨rfl, rfl⟩

/-- A drawing command in `READY`: the new page RAM and the response `OK`. -/
theorem execute_store {s : State} (h : s.phase = .ready) (m : Memory) (pix : Bool) :
    execute [.store m] pix s = .next { s with fb := m, resp := some (responseByte .ok pix) } := by
  rw [execute_ready h]
  rfl

/-- Everything a command can do, whatever its effects: nothing in `RESET`, an answer without effect in `FAILED`, and
in `READY` its effects and then `OK` or `SINK_ERROR`. -/
theorem State.perform_cases (s : State) (es : List Effect) (pix : Bool) :
    ((∃ p, s.phase = .reset p) ∧ s.perform es pix = s) ∨
    (s.phase = .failed ∧ s.perform es pix = s.raiseError .notReady) ∨
    (s.phase = .ready ∧ (s.runEffects es).2 = .ok ∧ s.perform es pix = (s.runEffects es).1.respond .ok pix) ∨
    (s.phase = .ready ∧ (s.runEffects es).2 = .err ∧ s.perform es pix = (s.runEffects es).1.raiseError .sinkError) := by
  unfold State.perform
  cases h : s.phase with
  | reset p => exact .inl ⟨⟨p, rfl⟩, rfl⟩
  | failed => exact .inr (.inl ⟨rfl, rfl⟩)
  | ready =>
    rcases State.complete_cases s es pix with ⟨h1, h2⟩ | ⟨h1, h2⟩
    · exact .inr (.inr (.inl ⟨rfl, h1, h2⟩))
    · exact .inr (.inr (.inr ⟨rfl, h1, h2⟩))

end Sys2Proof.Machine
end

