-- ==== Sys2Proof/Laws/Encoding.lean ====
section
/-! SUPPORT. The eight fields of a command word (R60): a word is its fields side by side, masking works field by
field, an assembled word has the fields it was assembled from, and what each row of R64 asks of the fields. -/

namespace Sys2Proof

/-- A word is its eight fields side by side (R60). -/
theorem word_eq_fields (a : Word) :
    a = fieldOP a ++ fieldRSV a ++ BitVec.ofBool (fieldV a) ++ fieldC a ++ fieldX a ++ fieldY a ++ fieldW a
      ++ fieldH a := by
  apply BitVec.eq_of_getLsbD_eq
  intro i hi
  simp only [BitVec.getLsbD_append, fieldOP, fieldRSV, fieldV, fieldC, fieldX, fieldY, fieldW, fieldH,
    BitVec.getLsbD_extractLsb', BitVec.getLsbD_ofBool]
  interval_cases i <;> simp

/-- Words with the same fields are the same word. -/
theorem word_ext {a b : Word} (h1 : fieldOP a = fieldOP b) (h2 : fieldRSV a = fieldRSV b)
    (h3 : fieldV a = fieldV b) (h4 : fieldC a = fieldC b) (h5 : fieldX a = fieldX b) (h6 : fieldY a = fieldY b)
    (h7 : fieldW a = fieldW b) (h8 : fieldH a = fieldH b) : a = b := by
  rw [word_eq_fields a, word_eq_fields b, h1, h2, h3, h4, h5, h6, h7, h8]

theorem extractLsb'_and (a m : Word) (lo n : Nat) :
    (a &&& m).extractLsb' lo n = a.extractLsb' lo n &&& m.extractLsb' lo n := by
  apply BitVec.eq_of_getLsbD_eq
  intro i hi
  simp [hi]

theorem fieldOP_and (a m : Word) : fieldOP (a &&& m) = fieldOP a &&& fieldOP m := extractLsb'_and a m 60 4
theorem fieldRSV_and (a m : Word) : fieldRSV (a &&& m) = fieldRSV a &&& fieldRSV m := extractLsb'_and a m 57 3
theorem fieldV_and (a m : Word) : fieldV (a &&& m) = (fieldV a && fieldV m) := BitVec.getLsbD_and
theorem fieldC_and (a m : Word) : fieldC (a &&& m) = fieldC a &&& fieldC m := extractLsb'_and a m 48 8
theorem fieldX_and (a m : Word) : fieldX (a &&& m) = fieldX a &&& fieldX m := extractLsb'_and a m 36 12
theorem fieldY_and (a m : Word) : fieldY (a &&& m) = fieldY a &&& fieldY m := extractLsb'_and a m 24 12
theorem fieldW_and (a m : Word) : fieldW (a &&& m) = fieldW a &&& fieldW m := extractLsb'_and a m 12 12
theorem fieldH_and (a m : Word) : fieldH (a &&& m) = fieldH a &&& fieldH m := extractLsb'_and a m 0 12

/-- A row is hit field by field. -/
theorem hits_iff_fields (r : OpcodeRow) (a : Word) : r.hits a = true ↔
    fieldOP a &&& fieldOP r.mask = fieldOP r.value ∧ fieldRSV a &&& fieldRSV r.mask = fieldRSV r.value ∧
    (fieldV a && fieldV r.mask) = fieldV r.value ∧ fieldC a &&& fieldC r.mask = fieldC r.value ∧
    fieldX a &&& fieldX r.mask = fieldX r.value ∧ fieldY a &&& fieldY r.mask = fieldY r.value ∧
    fieldW a &&& fieldW r.mask = fieldW r.value ∧ fieldH a &&& fieldH r.mask = fieldH r.value := by
  rw [OpcodeRow.hits, beq_iff_eq]
  constructor
  · intro e
    rw [← e]
    exact ⟨(fieldOP_and ..).symm, (fieldRSV_and ..).symm, (fieldV_and ..).symm, (fieldC_and ..).symm,
      (fieldX_and ..).symm, (fieldY_and ..).symm, (fieldW_and ..).symm, (fieldH_and ..).symm⟩
  · rintro ⟨h1, h2, h3, h4, h5, h6, h7, h8⟩
    exact word_ext ((fieldOP_and ..).trans h1) ((fieldRSV_and ..).trans h2) ((fieldV_and ..).trans h3)
      ((fieldC_and ..).trans h4) ((fieldX_and ..).trans h5) ((fieldY_and ..).trans h6) ((fieldW_and ..).trans h7)
      ((fieldH_and ..).trans h8)

theorem and_ones4 (x : BitVec 4) : x &&& 15#4 = x := BitVec.and_allOnes
theorem and_ones3 (x : BitVec 3) : x &&& 7#3 = x := BitVec.and_allOnes
theorem and_ones8 (x : BitVec 8) : x &&& 255#8 = x := BitVec.and_allOnes
theorem and_ones12 (x : BitVec 12) : x &&& 4095#12 = x := BitVec.and_allOnes

theorem and_zero8 (x : BitVec 8) : x &&& 0#8 = 0#8 := BitVec.and_zero
theorem and_zero12 (x : BitVec 12) : x &&& 0#12 = 0#12 := BitVec.and_zero

/-- What CLEAR's row asks for (R63). -/
theorem rowClear_hits (a : Word) : rowClear.hits a = true ↔
    fieldOP a = 1#4 ∧ fieldRSV a = 0#3 ∧ fieldV a = false ∧ fieldC a = 0#8 ∧ fieldX a = 0#12 ∧ fieldY a = 0#12 ∧
      fieldW a = 0#12 ∧ fieldH a = 0#12 := by
  rw [hits_iff_fields, show fieldOP rowClear.mask = 15#4 from rfl, show fieldRSV rowClear.mask = 7#3 from rfl,
    show fieldV rowClear.mask = true from rfl, show fieldC rowClear.mask = 255#8 from rfl,
    show fieldX rowClear.mask = 4095#12 from rfl, show fieldY rowClear.mask = 4095#12 from rfl,
    show fieldW rowClear.mask = 4095#12 from rfl, show fieldH rowClear.mask = 4095#12 from rfl, and_ones4, and_ones3,
    and_ones8, and_ones12, and_ones12, and_ones12, and_ones12, Bool.and_true]
  rfl

/-- What SETPX's row asks for (R63). -/
theorem rowSetpx_hits (a : Word) : rowSetpx.hits a = true ↔
    fieldOP a = 2#4 ∧ fieldRSV a = 0#3 ∧ fieldC a = 0#8 ∧ fieldW a = 0#12 ∧ fieldH a = 0#12 := by
  rw [hits_iff_fields, show fieldOP rowSetpx.mask = 15#4 from rfl, show fieldRSV rowSetpx.mask = 7#3 from rfl,
    show fieldV rowSetpx.mask = false from rfl, show fieldC rowSetpx.mask = 255#8 from rfl,
    show fieldX rowSetpx.mask = 0#12 from rfl, show fieldY rowSetpx.mask = 0#12 from rfl,
    show fieldW rowSetpx.mask = 4095#12 from rfl, show fieldH rowSetpx.mask = 4095#12 from rfl, and_ones4, and_ones3,
    and_ones8, and_zero12, and_zero12, and_ones12, and_ones12, Bool.and_false]
  exact ⟨fun h => ⟨h.1, h.2.1, h.2.2.2.1, h.2.2.2.2.2.2.1, h.2.2.2.2.2.2.2⟩,
    fun h => ⟨h.1, h.2.1, rfl, h.2.2.1, rfl, rfl, h.2.2.2.1, h.2.2.2.2⟩⟩

/-- What GETPX's row asks for (R63). -/
theorem rowGetpx_hits (a : Word) : rowGetpx.hits a = true ↔
    fieldOP a = 3#4 ∧ fieldRSV a = 0#3 ∧ fieldV a = false ∧ fieldC a = 0#8 ∧ fieldW a = 0#12 ∧ fieldH a = 0#12 := by
  rw [hits_iff_fields, show fieldOP rowGetpx.mask = 15#4 from rfl, show fieldRSV rowGetpx.mask = 7#3 from rfl,
    show fieldV rowGetpx.mask = true from rfl, show fieldC rowGetpx.mask = 255#8 from rfl,
    show fieldX rowGetpx.mask = 0#12 from rfl, show fieldY rowGetpx.mask = 0#12 from rfl,
    show fieldW rowGetpx.mask = 4095#12 from rfl, show fieldH rowGetpx.mask = 4095#12 from rfl, and_ones4, and_ones3,
    and_ones8, and_zero12, and_zero12, and_ones12, and_ones12, Bool.and_true]
  exact ⟨fun h => ⟨h.1, h.2.1, h.2.2.1, h.2.2.2.1, h.2.2.2.2.2.2.1, h.2.2.2.2.2.2.2⟩,
    fun h => ⟨h.1, h.2.1, h.2.2.1, h.2.2.2.1, rfl, rfl, h.2.2.2.2.1, h.2.2.2.2.2⟩⟩

/-- What SETRECT's row asks for (R63). -/
theorem rowSetrect_hits (a : Word) : rowSetrect.hits a = true ↔
    fieldOP a = 4#4 ∧ fieldRSV a = 0#3 ∧ fieldC a = 0#8 := by
  rw [hits_iff_fields, show fieldOP rowSetrect.mask = 15#4 from rfl, show fieldRSV rowSetrect.mask = 7#3 from rfl,
    show fieldV rowSetrect.mask = false from rfl, show fieldC rowSetrect.mask = 255#8 from rfl,
    show fieldX rowSetrect.mask = 0#12 from rfl, show fieldY rowSetrect.mask = 0#12 from rfl,
    show fieldW rowSetrect.mask = 0#12 from rfl, show fieldH rowSetrect.mask = 0#12 from rfl, and_ones4, and_ones3,
    and_ones8, and_zero12, and_zero12, and_zero12, and_zero12, Bool.and_false]
  exact ⟨fun h => ⟨h.1, h.2.1, h.2.2.2.1⟩, fun h => ⟨h.1, h.2.1, rfl, h.2.2, rfl, rfl, rfl, rfl⟩⟩

/-- What CHKRECT's row asks for (R63). -/
theorem rowChkrect_hits (a : Word) : rowChkrect.hits a = true ↔
    fieldOP a = 5#4 ∧ fieldRSV a = 0#3 ∧ fieldV a = false := by
  rw [hits_iff_fields, show fieldOP rowChkrect.mask = 15#4 from rfl, show fieldRSV rowChkrect.mask = 7#3 from rfl,
    show fieldV rowChkrect.mask = true from rfl, show fieldC rowChkrect.mask = 0#8 from rfl,
    show fieldX rowChkrect.mask = 0#12 from rfl, show fieldY rowChkrect.mask = 0#12 from rfl,
    show fieldW rowChkrect.mask = 0#12 from rfl, show fieldH rowChkrect.mask = 0#12 from rfl, and_ones4, and_ones3,
    and_zero8, and_zero12, and_zero12, and_zero12, and_zero12, Bool.and_true]
  exact ⟨fun h => ⟨h.1, h.2.1, h.2.2.1⟩, fun h => ⟨h.1, h.2.1, h.2.2, rfl, rfl, rfl, rfl, rfl⟩⟩

/-- What INVERT's row asks for (R63). -/
theorem rowInvert_hits (a : Word) : rowInvert.hits a = true ↔
    fieldOP a = 6#4 ∧ fieldRSV a = 0#3 ∧ fieldC a = 0#8 ∧ fieldX a = 0#12 ∧ fieldY a = 0#12 ∧ fieldW a = 0#12 ∧
      fieldH a = 0#12 := by
  rw [hits_iff_fields, show fieldOP rowInvert.mask = 15#4 from rfl, show fieldRSV rowInvert.mask = 7#3 from rfl,
    show fieldV rowInvert.mask = false from rfl, show fieldC rowInvert.mask = 255#8 from rfl,
    show fieldX rowInvert.mask = 4095#12 from rfl, show fieldY rowInvert.mask = 4095#12 from rfl,
    show fieldW rowInvert.mask = 4095#12 from rfl, show fieldH rowInvert.mask = 4095#12 from rfl, and_ones4, and_ones3,
    and_ones8, and_ones12, and_ones12, and_ones12, and_ones12, Bool.and_false]
  exact ⟨fun h => ⟨h.1, h.2.1, h.2.2.2⟩, fun h => ⟨h.1, h.2.1, rfl, h.2.2⟩⟩

/-- What FLUSH's row asks for (R63). -/
theorem rowFlush_hits (a : Word) : rowFlush.hits a = true ↔
    fieldOP a = 7#4 ∧ fieldRSV a = 0#3 ∧ fieldV a = false ∧ fieldC a = 0#8 ∧ fieldX a = 0#12 ∧ fieldY a = 0#12 ∧
      fieldW a = 0#12 ∧ fieldH a = 0#12 := by
  rw [hits_iff_fields, show fieldOP rowFlush.mask = 15#4 from rfl, show fieldRSV rowFlush.mask = 7#3 from rfl,
    show fieldV rowFlush.mask = true from rfl, show fieldC rowFlush.mask = 255#8 from rfl,
    show fieldX rowFlush.mask = 4095#12 from rfl, show fieldY rowFlush.mask = 4095#12 from rfl,
    show fieldW rowFlush.mask = 4095#12 from rfl, show fieldH rowFlush.mask = 4095#12 from rfl, and_ones4, and_ones3,
    and_ones8, and_ones12, and_ones12, and_ones12, and_ones12, Bool.and_true]
  rfl

/-- The bits of an assembled word (R68). -/
theorem getLsbD_assemble (op : BitVec 4) (v : Bool) (c x y w h : Int) {k : Nat} (hk : k < 64) :
    (assemble op v c x y w h).getLsbD k =
      if k < 12 then (BitVec.ofInt 12 h).getLsbD k
      else if k < 24 then (BitVec.ofInt 12 w).getLsbD (k - 12)
      else if k < 36 then (BitVec.ofInt 12 y).getLsbD (k - 24)
      else if k < 48 then (BitVec.ofInt 12 x).getLsbD (k - 36)
      else if k < 56 then (BitVec.ofInt 8 c).getLsbD (k - 48)
      else if k < 57 then v
      else if k < 60 then false
      else op.getLsbD (k - 60) := by
  unfold assemble
  simp only [BitVec.getLsbD_append]
  interval_cases k <;> simp

/-- A field of an assembled word, from its bits. -/
theorem field_of_bits {n lo : Nat} {a : Word} {f : BitVec n} (h : ∀ i, i < n → a.getLsbD (lo + i) = f.getLsbD i) :
    a.extractLsb' lo n = f := by
  apply BitVec.eq_of_getLsbD_eq
  intro i hi
  rw [BitVec.getLsbD_extractLsb', h i hi]
  simp [hi]

theorem fieldOP_assemble (op : BitVec 4) (v : Bool) (c x y w h : Int) : fieldOP (assemble op v c x y w h) = op :=
  field_of_bits fun i hi => by
    rw [getLsbD_assemble _ _ _ _ _ _ _ (by omega)]
    simp [show ¬60 + i < 12 by omega, show ¬60 + i < 24 by omega, show ¬60 + i < 36 by omega,
      show ¬60 + i < 48 by omega, show ¬60 + i < 56 by omega, show ¬60 + i < 57 by omega]

theorem fieldRSV_assemble (op : BitVec 4) (v : Bool) (c x y w h : Int) : fieldRSV (assemble op v c x y w h) = 0#3 :=
  field_of_bits fun i hi => by
    rw [getLsbD_assemble _ _ _ _ _ _ _ (by omega)]
    simp [show ¬57 + i < 12 by omega, show ¬57 + i < 24 by omega, show ¬57 + i < 36 by omega,
      show ¬57 + i < 48 by omega, show ¬57 + i < 56 by omega, show 57 + i < 60 by omega]

theorem fieldV_assemble (op : BitVec 4) (v : Bool) (c x y w h : Int) : fieldV (assemble op v c x y w h) = v :=
  getLsbD_assemble op v c x y w h (by omega : 56 < 64)

theorem fieldC_assemble (op : BitVec 4) (v : Bool) (c x y w h : Int) :
    fieldC (assemble op v c x y w h) = BitVec.ofInt 8 c :=
  field_of_bits fun i hi => by
    rw [getLsbD_assemble _ _ _ _ _ _ _ (by omega)]
    rw [if_neg (by omega), if_neg (by omega), if_neg (by omega), if_neg (by omega), if_pos (by omega),
      Nat.add_sub_cancel_left]

theorem fieldX_assemble (op : BitVec 4) (v : Bool) (c x y w h : Int) :
    fieldX (assemble op v c x y w h) = BitVec.ofInt 12 x :=
  field_of_bits fun i hi => by
    rw [getLsbD_assemble _ _ _ _ _ _ _ (by omega)]
    rw [if_neg (by omega), if_neg (by omega), if_neg (by omega), if_pos (by omega), Nat.add_sub_cancel_left]

theorem fieldY_assemble (op : BitVec 4) (v : Bool) (c x y w h : Int) :
    fieldY (assemble op v c x y w h) = BitVec.ofInt 12 y :=
  field_of_bits fun i hi => by
    rw [getLsbD_assemble _ _ _ _ _ _ _ (by omega)]
    rw [if_neg (by omega), if_neg (by omega), if_pos (by omega), Nat.add_sub_cancel_left]

theorem fieldW_assemble (op : BitVec 4) (v : Bool) (c x y w h : Int) :
    fieldW (assemble op v c x y w h) = BitVec.ofInt 12 w :=
  field_of_bits fun i hi => by
    rw [getLsbD_assemble _ _ _ _ _ _ _ (by omega)]
    rw [if_neg (by omega), if_pos (by omega), Nat.add_sub_cancel_left]

theorem fieldH_assemble (op : BitVec 4) (v : Bool) (c x y w h : Int) :
    fieldH (assemble op v c x y w h) = BitVec.ofInt 12 h :=
  field_of_bits fun i hi => by
    rw [getLsbD_assemble _ _ _ _ _ _ _ (by omega)]
    rw [if_pos (by omega), Nat.zero_add]

/-- A 12-bit operand in range survives its field (R62, R68). -/
theorem toInt_ofInt_s12 {v : Int} (h : inS12 v = true) : (BitVec.ofInt 12 v).toInt = v := by
  simp only [inS12, Bool.and_eq_true, decide_eq_true_eq] at h
  rw [BitVec.toInt_ofInt]
  exact Int.bmod_eq_of_le (by omega) (by omega)

/-- An 8-bit operand in range survives its field (R62, R68). -/
theorem toInt_ofInt_s8 {v : Int} (h : inS8 v = true) : (BitVec.ofInt 8 v).toInt = v := by
  simp only [inS8, Bool.and_eq_true, decide_eq_true_eq] at h
  rw [BitVec.toInt_ofInt]
  exact Int.bmod_eq_of_le (by omega) (by omega)

end Sys2Proof
end

