-- ==== Sys2Proof/Laws/Loops.lean ====
section
/-! SUPPORT. The region commands write by write: a run of a list of writes is the loop it is the list of. -/

namespace Sys2Proof.Machine

/-- Page RAM writes, none of which can be refused: they leave the page RAM `f` makes, and nothing else. -/
def Writes (c : Config) (es : List Effect) (f : Memory → Memory) : Prop :=
  ∀ s : State, s.cfg = c → s.runEffects es = ({ s with fb := f s.fb }, .ok)

theorem Writes.pixel (c : Config) (px py : Nat) (v : Bool) : Writes c [.writePixel px py v] (writePixel c px py v) := by
  rintro s rfl
  rfl

theorem Writes.append {c : Config} {es ds : List Effect} {f g : Memory → Memory} (he : Writes c es f)
    (hd : Writes c ds g) : Writes c (es ++ ds) fun m => g (f m) := by
  intro s hs
  have h := he s hs
  rw [State.runEffects_append_ok (by rw [h]), h]
  exact hd _ hs

/-- The writes of a loop are the loop's. -/
theorem Writes.loop {c : Config} {body : Int → List Effect} {f : Int → Memory → Memory}
    (h : ∀ k, Writes c (body k) (f k)) (lo n : Int) : Writes c (loopEffects lo n body) (loop lo n f) := by
  unfold loopEffects Machine.loop
  generalize List.range n.toNat = l
  induction l with
  | nil => exact fun s _ => rfl
  | cons k l ih => exact (h (lo + k)).append ih

/-- SETRECT's writes leave what R100's nested loop leaves. -/
theorem writes_setrect (c : Config) (x y w h : Int) (v : Bool) :
    Writes c (setrectWrites c x y w h v) (setrectLoop c x y w h v) :=
  Writes.loop (fun _ => Writes.loop (fun _ => Writes.pixel _ _ _ _) x w) y h

/-- CHKRECT's writes leave what R105's nested loop leaves. -/
theorem writes_chkrect (c : Config) (x y w h cell : Int) :
    Writes c (chkrectWrites c x y w h cell) (chkrectLoop c x y w h cell) :=
  Writes.loop (fun _ => Writes.loop (fun _ => Writes.pixel _ _ _ _) _ _) _ _

/-- Byte writes of CLEAR, the first `n` of them. -/
theorem writes_clear (c : Config) (n : Nat) :
    Writes c ((List.range n).map fun i => .writeByte i 0x00#8)
      fun m => (List.range n).foldl (fun acc i => acc.write i 0x00#8) m := by
  generalize List.range n = l
  induction l with
  | nil => exact fun s _ => rfl
  | cons i l ih =>
    intro s hs
    exact ih { s with fb := s.fb.write i 0x00#8 } hs

/-- The loop's effects are those of its iterations, whatever each of them is. -/
theorem forall_loopEffects {P : Effect → Prop} {lo n : Int} {body : Int → List Effect}
    (h : ∀ k, lo ≤ k → k < lo + n → ∀ e ∈ body k, P e) : ∀ e ∈ loopEffects lo n body, P e := by
  intro e he
  obtain ⟨k, hk, hb⟩ := List.mem_flatMap.1 he
  have := List.mem_range.1 hk
  exact h (lo + k) (by omega) (by omega) e hb

/-- SETRECT writes pixels of the display only. -/
theorem setrectWrites_good {c : Config} (hl : legal c = true) (x y w h : Int) (v : Bool) :
    ∀ e ∈ setrectWrites c x y w h v, GoodEffect c e :=
  forall_loopEffects fun _ _ _ => forall_loopEffects fun _ _ _ =>
    List.forall_mem_singleton.2 ⟨cx_lt hl _, cy_lt hl _⟩

/-- CHKRECT writes pixels of the display only. -/
theorem chkrectWrites_good (c : Config) (x y w h cell : Int) :
    ∀ e ∈ chkrectWrites c x y w h cell, GoodEffect c e :=
  forall_loopEffects fun py hy gy => forall_loopEffects fun px hx gx => List.forall_mem_singleton.2 (by
    unfold clipLow clipHigh at *
    exact ⟨by omega, by omega⟩)

/-- CLEAR writes bytes of the page RAM only. -/
theorem clearWrites_good (c : Config) : ∀ e ∈ clearWrites c, GoodEffect c e := by
  intro e he
  obtain ⟨i, hi, rfl⟩ := List.mem_map.1 he
  exact List.mem_range.1 hi

/-- A command that writes no region of the page RAM runs its single effects as they are. -/
theorem singleEffects_eq_effectsOf {i : Instr} (h : ∀ x y w h' v, i.expand ≠ .setrect x y w h' v)
    (hc : ∀ x y w h' c, i ≠ .chkrect x y w h' c) (hk : i ≠ .clear) (s : State) :
    singleEffects i s = effectsOf i s := by
  cases i with
  | clear => exact absurd rfl hk
  | setrect x y w h' v => exact absurd rfl (h x y w h' v)
  | fillrect x y w h' => exact absurd rfl (h x y w h' true)
  | clrrect x y w h' => exact absurd rfl (h x y w h' false)
  | chkrect x y w h' c => exact absurd rfl (hc x y w h' c)
  | _ => rfl

end Sys2Proof.Machine
end

