-- ==== Sys2Proof/Laws/PerInstr.lean ====
section
/-! SUPPORT. Statements about every command as syntax, one lemma per constructor. Family `OpcodeField`: the word of a
command holds its opcode in `OP` and zero in `RSV` (R61, R63). -/

namespace Sys2Proof.Laws.OpcodeField

/-- The word's `OP` is the command's opcode, and its `RSV` is zero. -/
def Statement (i : Instr) : Prop := fieldOP (encode i) = i.opcode ∧ fieldRSV (encode i) = 0#3

theorem clear : Statement .clear := ⟨fieldOP_assemble .., fieldRSV_assemble ..⟩
theorem setpx (x y : Int) (v : Bool) : Statement (.setpx x y v) := ⟨fieldOP_assemble .., fieldRSV_assemble ..⟩
theorem getpx (x y : Int) : Statement (.getpx x y) := ⟨fieldOP_assemble .., fieldRSV_assemble ..⟩
theorem setrect (x y w h : Int) (v : Bool) : Statement (.setrect x y w h v) :=
  ⟨fieldOP_assemble .., fieldRSV_assemble ..⟩
theorem chkrect (x y w h c : Int) : Statement (.chkrect x y w h c) := ⟨fieldOP_assemble .., fieldRSV_assemble ..⟩
theorem invert (v : Bool) : Statement (.invert v) := ⟨fieldOP_assemble .., fieldRSV_assemble ..⟩
theorem flush : Statement .flush := ⟨fieldOP_assemble .., fieldRSV_assemble ..⟩
theorem fillrect (x y w h : Int) : Statement (.fillrect x y w h) := ⟨fieldOP_assemble .., fieldRSV_assemble ..⟩
theorem clrrect (x y w h : Int) : Statement (.clrrect x y w h) := ⟨fieldOP_assemble .., fieldRSV_assemble ..⟩

end Sys2Proof.Laws.OpcodeField
end

