-- ==== Sys2Proof/Laws/Step.lean ====
section
/-! SUPPORT. Once, everything a step can do: which action comes next, what each is, and that every command is its
effects and its response. -/

namespace Sys2Proof.Machine

/-- Every meaning is its command's effects, run to a response; `pix` is the bit a GETPX answers with. -/
theorem exec_eq_execute (i : Instr) (s : State) : ∃ pix, exec i s = execute (effectsOf i s) pix s ∧
    (pix = true → ∃ x y, i = .getpx x y) := by
  cases i with
  | getpx x y => exact ⟨_, rfl, fun _ => ⟨x, y, rfl⟩⟩
  | _ => exact ⟨false, rfl, fun h => by cases h⟩

/-- A command always ends in a next state. -/
theorem exec_next (i : Instr) (s : State) : ∃ pix, exec i s = .next (s.perform (effectsOf i s) pix) ∧
    (pix = true → ∃ x y, i = .getpx x y) :=
  exec_eq_execute i s

/-- When the port accepts a command, and which (R170). -/
theorem offered_iff (s : State) (cmd : Word) : s.offered = some cmd ↔
    s.resetIn = false ∧ s.started = true ∧ s.busy = false ∧ s.resp = none ∧ (s.phase = .ready ∨ s.phase = .failed) ∧
      s.port.head? = some cmd := by
  unfold State.offered
  cases s.resetIn <;> cases s.started <;> cases s.busy <;> cases s.resp <;> cases s.phase <;> simp

/-- The block's own actions. -/
theorem ownAction_cases (s : State) :
    (s.resetIn = true ∧ ownAction s = .idle) ∨
    (s.resetIn = false ∧ s.started = false ∧ ownAction s = .stuck) ∨
    (s.resetIn = false ∧ s.started = true ∧ ∃ p, s.phase = .reset p ∧ ownAction s = .sequence p) ∨
    (s.resetIn = false ∧ s.started = true ∧ (s.phase = .ready ∨ s.phase = .failed) ∧
      ((∃ r, s.resp = some r ∧ s.respReady = true ∧ ownAction s = .take r) ∨
       (∃ r, s.resp = some r ∧ s.respReady = false ∧ ownAction s = .idle) ∨
       (∃ cmd, s.resp = none ∧ s.offered = some cmd ∧ ownAction s = .command cmd) ∨
       (s.resp = none ∧ s.offered = none ∧ ownAction s = .idle))) := by
  unfold ownAction
  cases hr : s.resetIn <;> cases hs : s.started <;> cases hp : s.phase <;> cases hq : s.resp <;>
    cases ho : s.offered <;> cases hy : s.respReady <;> simp

/-- Which action comes next (R8, R164, R170): an illegal configuration has none; else the outside world's event has
the step, and without one the block. -/
theorem nextAction_cases (s : State) :
    (legal s.cfg = false ∧ nextAction s = .unbuildable) ∨
    (legal s.cfg = true ∧ (s.agenda.head? = none ∨ s.agenda.head? = some .run) ∧ nextAction s = ownAction s) ∨
    (legal s.cfg = true ∧ ∃ done cmd, s.agenda.head? = some (.resetDuring done) ∧ s.offered = some cmd ∧
      nextAction s = .abandon done cmd) ∨
    (legal s.cfg = true ∧ ∃ done, s.agenda.head? = some (.resetDuring done) ∧ s.offered = none ∧
      nextAction s = .outside (.resetDuring done)) ∨
    (legal s.cfg = true ∧ ∃ cmd, s.agenda.head? = some (.present cmd) ∧ nextAction s = .outside (.present cmd)) ∨
    (legal s.cfg = true ∧ ∃ l, s.agenda.head? = some (.setReady l) ∧ nextAction s = .outside (.setReady l)) ∨
    (legal s.cfg = true ∧ s.agenda.head? = some .assertReset ∧ nextAction s = .outside .assertReset) ∨
    (legal s.cfg = true ∧ s.agenda.head? = some .releaseReset ∧ nextAction s = .outside .releaseReset) := by
  unfold nextAction
  cases hl : legal s.cfg
  · exact .inl ⟨rfl, rfl⟩
  · cases ha : s.agenda.head? with
    | none => simp
    | some e => cases e <;> cases ho : s.offered <;> simp

/-- Everything a step to a next state can be. -/
theorem step_cases {s t : State} (h : step s = .next t) :
    (∃ e, nextAction s = .outside e ∧ t = applyEvent e s.tick) ∨
    (nextAction s = .idle ∧ t = s.tick) ∨
    (∃ p, nextAction s = .sequence p ∧ t = sequenceStep p s.tick) ∨
    (∃ r, nextAction s = .take r ∧ t = s.tick.takeResponse r) ∨
    (∃ done cmd, nextAction s = .abandon done cmd ∧ t = abandonCommand done cmd s.tick) ∨
    (∃ cmd, nextAction s = .command cmd ∧ runCommand cmd s.tick.accept = .next t) := by
  unfold step at h
  cases ha : nextAction s <;> simp only [ha, reduceCtorEq, Host.Outcome.next.injEq] at h
  · exact .inl ⟨_, rfl, h.symm⟩
  · exact .inr (.inl ⟨rfl, h.symm⟩)
  · exact .inr (.inr (.inl ⟨_, rfl, h.symm⟩))
  · exact .inr (.inr (.inr (.inl ⟨_, rfl, h.symm⟩)))
  · exact .inr (.inr (.inr (.inr (.inl ⟨_, _, rfl, h.symm⟩))))
  · exact .inr (.inr (.inr (.inr (.inr ⟨_, rfl, h⟩))))

/-- The three answers to an accepted word, in the order of R145. -/
theorem runCommand_cases (cmd : Word) (s : State) :
    (s.phase = .failed ∧ runCommand cmd s = .next (s.raiseError .notReady)) ∨
    (s.phase ≠ .failed ∧ (∃ r, decode cmd = .error r) ∧ runCommand cmd s = .next (s.raiseError .illegalCommand)) ∨
    (s.phase ≠ .failed ∧ ∃ i, decode cmd = .ok i ∧ runCommand cmd s = exec i s) := by
  unfold runCommand verdictOf
  cases hp : s.phase <;> cases hd : decode cmd <;> simp

/-- An accepted word is always answered with a next state. -/
theorem runCommand_next (cmd : Word) (s : State) : ∃ t, runCommand cmd s = .next t := by
  rcases runCommand_cases cmd s with ⟨-, h⟩ | ⟨-, -, h⟩ | ⟨-, i, -, h⟩
  · exact ⟨_, h⟩
  · exact ⟨_, h⟩
  · obtain ⟨pix, hx, -⟩ := exec_next i s
    exact ⟨_, h.trans hx⟩

/-- A word's run to a next state: an error without effect, or a command's effects and response. -/
theorem runCommand_inv {cmd : Word} {s t : State} (h : runCommand cmd s = .next t) :
    (s.phase = .failed ∧ t = s.raiseError .notReady) ∨
    (s.phase ≠ .failed ∧ (∃ r, decode cmd = .error r) ∧ t = s.raiseError .illegalCommand) ∨
    (s.phase ≠ .failed ∧ ∃ i pix, decode cmd = .ok i ∧ t = s.perform (effectsOf i s) pix) := by
  rcases runCommand_cases cmd s with ⟨g, h'⟩ | ⟨g, r, h'⟩ | ⟨g, i, d, h'⟩
  · rw [h] at h'
    cases h'
    exact .inl ⟨g, rfl⟩
  · rw [h] at h'
    cases h'
    exact .inr (.inl ⟨g, r, rfl⟩)
  · obtain ⟨pix, hx, -⟩ := exec_next i s
    rw [h, hx] at h'
    cases h'
    exact .inr (.inr ⟨g, i, pix, d, rfl⟩)

/-- What each action says of the state whose next action it is. -/
def ActionOf (s : State) (a : Action) : Prop :=
  match a with
  | .unbuildable => legal s.cfg = false
  | .stuck => s.started = false
  | .outside e => s.agenda.head? = some e
  | .idle => True
  | .sequence p => s.phase = .reset p ∧ s.resetIn = false
  | .take r => s.resp = some r ∧ s.resetIn = false ∧ s.respReady = true ∧ (s.phase = .ready ∨ s.phase = .failed)
  | .abandon done cmd => s.offered = some cmd ∧ s.agenda.head? = some (.resetDuring done)
  | .command cmd => s.offered = some cmd

theorem actionOf_ownAction (s : State) : ActionOf s (ownAction s) := by
  rcases ownAction_cases s with ⟨-, k⟩ | ⟨-, hs, k⟩ | ⟨hr, -, p, hp, k⟩ | ⟨hr, -, hp, k⟩
  · rw [k]; trivial
  · rw [k]; exact hs
  · rw [k]; exact ⟨hp, hr⟩
  · rcases k with ⟨r, hq, hy, k⟩ | ⟨r, -, -, k⟩ | ⟨cmd, -, ho, k⟩ | ⟨-, -, k⟩ <;> rw [k]
    · exact ⟨hq, hr, hy, hp⟩
    · trivial
    · exact ho
    · trivial

/-- The next action is what it says it is. -/
theorem actionOf_nextAction (s : State) : ActionOf s (nextAction s) := by
  rcases nextAction_cases s with ⟨hl, g⟩ | ⟨-, -, g⟩ | ⟨-, d, w, ha, ho, g⟩ | ⟨-, d, ha, -, g⟩ | ⟨-, w, ha, g⟩ |
    ⟨-, l, ha, g⟩ | ⟨-, ha, g⟩ | ⟨-, ha, g⟩ <;> rw [g]
  · exact hl
  · exact actionOf_ownAction s
  · exact ⟨ho, ha⟩
  all_goals exact ha

/-- When a command is accepted in a step of the block's own. -/
theorem nextAction_command {s : State} {cmd : Word} (h : nextAction s = .command cmd) : s.offered = some cmd := by
  have := actionOf_nextAction s
  rwa [h] at this

/-- When the reset sequence takes a step. -/
theorem nextAction_sequence {s : State} {p : SeqPoint} (h : nextAction s = .sequence p) :
    s.phase = .reset p ∧ s.resetIn = false := by
  have := actionOf_nextAction s
  rwa [h] at this

/-- When the host takes a response. -/
theorem nextAction_take {s : State} {r : Byte} (h : nextAction s = .take r) :
    s.resp = some r ∧ s.resetIn = false ∧ s.respReady = true ∧ (s.phase = .ready ∨ s.phase = .failed) := by
  have := actionOf_nextAction s
  rwa [h] at this

/-- When a command is abandoned by a reset. -/
theorem nextAction_abandon {s : State} {done : Nat} {cmd : Word} (h : nextAction s = .abandon done cmd) :
    s.offered = some cmd ∧ s.agenda.head? = some (.resetDuring done) := by
  have := actionOf_nextAction s
  rwa [h] at this

/-- When the outside world moves. -/
theorem nextAction_outside {s : State} {e : Event} (h : nextAction s = .outside e) : s.agenda.head? = some e := by
  have := actionOf_nextAction s
  rwa [h] at this

/-- Every command's effects are good ones in a legal block whose page RAM is canonical and bounded. -/
theorem effectsOf_good {s : State} (hl : legal s.cfg = true) (hm : s.fb.wf = true)
    (hb : s.fb.within (nbytes s.cfg) = true) (i : Instr) : ∀ e ∈ effectsOf i s, GoodEffect s.cfg e := by
  cases i with
  | clear => exact List.forall_mem_singleton.2 ⟨Memory.wf_update hm _ _, Memory.within_update hb _⟩
  | setpx x y v =>
    exact List.forall_mem_singleton.2
      ⟨wf_writePixel hm _ _ _ _, within_writePixel hl hb (cx_lt hl _) (cy_lt hl _) _⟩
  | getpx x y => exact fun e he => absurd he List.not_mem_nil
  | setrect x y w h v => exact List.forall_mem_singleton.2 ⟨wf_paintAll hm _ _, within_paintAll hb _⟩
  | chkrect x y w h c => exact List.forall_mem_singleton.2 ⟨wf_paintAll hm _ _, within_paintAll hb _⟩
  | fillrect x y w h => exact List.forall_mem_singleton.2 ⟨wf_paintAll hm _ _, within_paintAll hb _⟩
  | clrrect x y w h => exact List.forall_mem_singleton.2 ⟨wf_paintAll hm _ _, within_paintAll hb _⟩
  | invert v =>
    intro e he
    simp only [effectsOf, invertEffects, List.mem_cons, List.not_mem_nil, or_false] at he
    rcases he with rfl | rfl <;> trivial
  | flush =>
    intro e he
    simp only [effectsOf, flushEffects, List.mem_cons, List.not_mem_nil, or_false] at he
    rcases he with rfl | rfl | rfl <;> trivial

/-- So are its single effects. -/
theorem singleEffects_good {s : State} (hl : legal s.cfg = true) (hm : s.fb.wf = true)
    (hb : s.fb.within (nbytes s.cfg) = true) (i : Instr) : ∀ e ∈ singleEffects i s, GoodEffect s.cfg e := by
  cases i with
  | clear => exact clearWrites_good _
  | setrect x y w h v => exact setrectWrites_good hl _ _ _ _ _
  | chkrect x y w h c => exact chkrectWrites_good _ _ _ _ _ _
  | fillrect x y w h => exact setrectWrites_good hl _ _ _ _ _
  | clrrect x y w h => exact setrectWrites_good hl _ _ _ _ _
  | setpx x y v => exact effectsOf_good hl hm hb (.setpx x y v)
  | getpx x y => exact effectsOf_good hl hm hb (.getpx x y)
  | invert v => exact effectsOf_good hl hm hb (.invert v)
  | flush => exact effectsOf_good hl hm hb .flush

/-- A response byte is one of R140's five, where only `OK` carries a pixel. -/
theorem responseByte_mem (st : Status) (pix : Bool) (h : pix = true → st = .ok) :
    responseByte st pix ∈ responseBytes := by
  cases st <;> cases pix <;> first | decide | exact absurd (h rfl) (by decide)

end Sys2Proof.Machine
end

