-- ==== Sys2Proof/Tests/Slice0.lean ====
section
/-! SUPPORT. The model's own tests. Expected results are the spec's: the worked words of spec/30_encoding.md R68, R69
and the vectors of spec/95_test_vectors.md, whose ids stand in the comments. Then, for every statement of
Certificates/Slice0/Obligations.lean that has hypotheses, a named witness of a state and operands that meet them. -/

namespace Sys2Proof.Tests

open Sys2Proof.Machine

/-! ### Helpers -/

/-- A display of `w` by `h` pixels with a two-entry initialization table. -/
def display (w h : Nat) : Config where
  width := w
  height := h
  opcColumnRange := 0x31#8
  opcPageRange := 0x32#8
  opcInvert := 0x33#8
  opcNormal := 0x34#8
  initTable := [[0x41#8], [0x42#8, 0x43#8]]
  rstActiveLevel := false

/-- The reset state of such a display, with the sink answering as listed. -/
def onDisplay (w h : Nat) (answers : List SinkAnswer) : State :=
  { State.resetOf (display w h) with answers := answers }

/-- 16 x 16 (95_test_vectors.md 2.3, 2.4). -/
def s16 : State := onDisplay 16 16 []

/-- The next state, or the state itself where the step stops. -/
def nextOf (s : State) (o : Host.Outcome State Fault Refusal) : State :=
  match o with
  | .next t => t
  | .fault _ => s
  | .refused _ => s

/-- The page RAM a command leaves. -/
def fbAfter (i : Instr) (s : State) : Memory := (nextOf s (exec i s)).fb

/-- The response a command leaves. -/
def respAfter (i : Instr) (s : State) : Option Byte := (nextOf s (exec i s)).resp

/-- The state after one step. -/
def stepped (s : State) : State := nextOf s (step s)

/-! ### Ill-formed commands are refused (R68) -/

theorem test_wf_setpx : (Instr.setpx 2048 0 true).wf = false ∧ (Instr.setpx 0 (-2049) true).wf = false ∧
    (Instr.setpx (-2048) 2047 true).wf = true := by decide

theorem test_wf_getpx : (Instr.getpx (-2049) 0).wf = false ∧ (Instr.getpx 0 2048).wf = false := by decide

theorem test_wf_setrect : (Instr.setrect 2048 0 0 0 true).wf = false ∧ (Instr.setrect 0 2048 0 0 true).wf = false ∧
    (Instr.setrect 0 0 2048 0 true).wf = false ∧ (Instr.setrect 0 0 0 (-2049) true).wf = false := by decide

theorem test_wf_chkrect : (Instr.chkrect 2048 0 0 0 1).wf = false ∧ (Instr.chkrect 0 (-2049) 0 0 1).wf = false ∧
    (Instr.chkrect 0 0 (-2049) 0 1).wf = false ∧ (Instr.chkrect 0 0 0 2048 1).wf = false ∧
    (Instr.chkrect 0 0 1 1 128).wf = false ∧ (Instr.chkrect 0 0 1 1 (-129)).wf = false := by decide

theorem test_wf_fillrect : (Instr.fillrect 2048 0 0 0).wf = false ∧ (Instr.fillrect 0 2048 0 0).wf = false ∧
    (Instr.fillrect 0 0 2048 0).wf = false ∧ (Instr.fillrect 0 0 0 2048).wf = false := by decide

theorem test_wf_clrrect : (Instr.clrrect (-2049) 0 0 0).wf = false ∧ (Instr.clrrect 0 (-2049) 0 0).wf = false ∧
    (Instr.clrrect 0 0 (-2049) 0).wf = false ∧ (Instr.clrrect 0 0 0 (-2049)).wf = false := by decide

/-- An illegal configuration is refused, check by check (R8, R163). -/
theorem test_legal_checks : legal (display 0 8) = false ∧ legal (display 257 8) = false ∧
    legal (display 1 0) = false ∧ legal (display 1 2048) = false ∧ legal (display 1 12) = false ∧
    legal { display 1 8 with initTable := [[]] } = false ∧ legal (display 256 2040) = true := by decide

/-! ### Decoding: words written out in the spec -/

/-- E2, E3. -/
theorem test_decode_clear : decode 0x1000000000000000#64 = .ok .clear ∧
    decode 0x1000000000000001#64 = .error (.nonzeroReservedField 1#4) := by decide

/-- R69's examples, E5, E6. -/
theorem test_decode_setpx : decode 0x210000500A000000#64 = .ok (.setpx 5 10 true) ∧
    decode 0x2100FFF000000000#64 = .ok (.setpx (-1) 0 true) ∧
    decode 0x21008007FF000000#64 = .ok (.setpx (-2048) 2047 true) ∧
    decode 0x2200000000000000#64 = .error (.nonzeroReservedField 2#4) ∧
    decode 0x2100000000001000#64 = .error (.nonzeroReservedField 2#4) := by decide

/-- R69's example, P17, E7. -/
theorem test_decode_getpx : decode 0x300000500A000000#64 = .ok (.getpx 5 10) ∧
    decode 0x3000FF77FF000000#64 = .ok (.getpx (-9) 2047) ∧
    decode 0x3100000000000000#64 = .error (.nonzeroReservedField 3#4) := by decide

/-- R69's example, vectors R6 and R10 of 2.3, E9. -/
theorem test_decode_setrect : decode 0x4100000000008008#64 = .ok (.setrect 0 0 8 8 true) ∧
    decode 0x4100FFDFFD005005#64 = .ok (.setrect (-3) (-3) 5 5 true) ∧
    decode 0x400000100100300E#64 = .ok (.setrect 1 1 3 14 false) ∧
    decode 0x4001000000000000#64 = .error (.nonzeroReservedField 4#4) := by decide

/-- R69's example, K3, E11, E10. -/
theorem test_decode_chkrect : decode 0x5004000000008008#64 = .ok (.chkrect 0 0 8 8 4) ∧
    decode 0x50FB000000008008#64 = .ok (.chkrect 0 0 8 8 (-5)) ∧
    decode 0x50FF000000000000#64 = .ok (.chkrect 0 0 0 0 (-1)) ∧
    decode 0x5100000000000000#64 = .error (.nonzeroReservedField 5#4) := by decide

/-- R69's example, N2, E12. -/
theorem test_decode_invert : decode 0x6100000000000000#64 = .ok (.invert true) ∧
    decode 0x6000000000000000#64 = .ok (.invert false) ∧
    decode 0x6100000000000001#64 = .error (.nonzeroReservedField 6#4) := by decide

/-- E13, E14. -/
theorem test_decode_flush : decode 0x7000000000000000#64 = .ok .flush ∧
    decode 0x7100000000000000#64 = .error (.nonzeroReservedField 7#4) := by decide

/-- E1, E15, E16, E17. -/
theorem test_decode_reserved : decode 0#64 = .error (.reservedOpcode 0#4) ∧
    decode 0x8000000000000000#64 = .error (.reservedOpcode 8#4) ∧
    decode 0xF000000000000000#64 = .error (.reservedOpcode 15#4) ∧
    decode 0xFFFFFFFFFFFFFFFF#64 = .error (.reservedOpcode 15#4) := by decide

/-- The assembly examples of R69 and 2.1: FILLRECT and CLRRECT have SETRECT's words. -/
theorem test_encode_pseudo : encode (.fillrect 0 0 8 8) = 0x4100000000008008#64 ∧
    encode (.fillrect 0 0 16 16) = 0x4100000000010010#64 ∧ encode (.clrrect 1 1 3 14) = 0x400000100100300E#64 := by
  decide

/-- R69 and 2.1, the other way round. -/
theorem test_encode_words : encode .clear = 0x1000000000000000#64 ∧
    encode (.setpx (-2048) 2047 true) = 0x21008007FF000000#64 ∧ encode (.getpx 5 10) = 0x300000500A000000#64 ∧
    encode (.chkrect 6 (-1) 5 3 (-2)) = 0x50FE006FFF005003#64 ∧ encode (.invert true) = 0x6100000000000000#64 ∧
    encode .flush = 0x7000000000000000#64 := by decide

/-- 2.1: an operand out of range has no encoding. -/
theorem test_assemble_refuses : assembleChecked (.setpx 2048 0 true) = none ∧
    assembleChecked (.chkrect 0 0 1 1 128) = none := by decide

/-- The host's table question, on SETPX's and FLUSH's rows. -/
theorem test_decode_table_word : decodeTableWord 64 0x2000000000000000 = some (.setpx 0 0 false) ∧
    decodeTableWord 64 0x7000000000000000 = some .flush ∧ decodeTableWord 64 0 = none := by decide

/-! ### Commands -/

/-- W1, P14. -/
theorem test_setpx : fbAfter (.setpx 5 10 true) (onDisplay 128 64 []) = [(133, 0x04#8)] ∧
    fbAfter (.setpx 5 10 false) { onDisplay 128 64 [] with fb := [(133, 0xFF#8)] } = [(133, 0xFB#8)] := by decide

/-- P9, P10: field extremes. -/
theorem test_setpx_clamps : fbAfter (.setpx (-2048) 2047 true) (onDisplay 128 64 []) = [(896, 0x80#8)] ∧
    fbAfter (.setpx 2047 (-2048) true) (onDisplay 128 64 []) = [(127, 0x01#8)] := by decide

/-- P16, P17. -/
theorem test_getpx : respAfter (.getpx 5 11) { onDisplay 128 64 [] with fb := [(133, 0x04#8)] } = some 0x00#8 ∧
    respAfter (.getpx (-9) 2047) { onDisplay 128 64 [] with fb := [(896, 0x80#8)] } = some 0x01#8 := by decide

/-- Vectors R5 and R7 of 2.3. -/
theorem test_setrect : fbAfter (.setrect 14 14 5 5 true) s16 = [(30, 0xC0#8), (31, 0xC0#8)] ∧
    fbAfter (.setrect 200 0 10 8 true) s16 = [(15, 0xFF#8)] := by decide

/-- Vectors R6 and R8 of 2.3. -/
theorem test_fillrect : fbAfter (.fillrect (-3) (-3) 5 5) s16 = [(0, 0x03#8), (1, 0x03#8)] ∧
    fbAfter (.fillrect 0 (-50) 2 10) s16 = [(0, 0x01#8), (1, 0x01#8)] := by decide

/-- Vector R10 of 2.3, on the bytes it names. -/
theorem test_clrrect :
    fbAfter (.clrrect 1 1 3 14) { s16 with fb := [(0, 0xFF#8), (1, 0xFF#8), (3, 0xFF#8), (17, 0xFF#8)] }
      = [(0, 0xFF#8), (1, 0x01#8), (3, 0x01#8), (17, 0x80#8)] := by decide

/-- K4, K5. -/
theorem test_chkrect : fbAfter (.chkrect 0 0 7 5 3) s16 = [(0, 0x07#8), (1, 0x07#8), (2, 0x07#8), (3, 0x18#8),
      (4, 0x18#8), (5, 0x18#8), (6, 0x07#8)] ∧
    fbAfter (.chkrect (-2) 0 6 4 2) s16 = [(0, 0x03#8), (1, 0x03#8), (2, 0x0C#8), (3, 0x0C#8)] := by decide

/-- K9, K6. -/
theorem test_chkrect_clips : fbAfter (.chkrect 12 12 8 8 2) s16 = [(28, 0x30#8), (29, 0x30#8), (30, 0xC0#8),
      (31, 0xC0#8)] ∧
    fbAfter (.chkrect 20 0 4 4 2) s16 = [] := by decide

/-- The literal loops give the same bytes (vectors R2 of 2.3 and K5). -/
theorem test_loops : setrectLoop (display 16 16) 2 6 3 4 true [] =
      [(2, 0xC0#8), (3, 0xC0#8), (4, 0xC0#8), (18, 0x03#8), (19, 0x03#8), (20, 0x03#8)] ∧
    chkrectLoop (display 16 16) (-2) 0 6 4 2 [] = [(0, 0x03#8), (1, 0x03#8), (2, 0x0C#8), (3, 0x0C#8)] := by decide

/-- L1. -/
theorem test_clear : fbAfter .clear { s16 with fb := [(0, 0xFF#8), (31, 0x01#8)], inv := true } = [] ∧
    (nextOf s16 (exec .clear { s16 with inv := true })).inv = true := by decide

/-- N1, N4. -/
theorem test_invert :
    (nextOf s16 (exec (.invert true) (onDisplay 16 16 [.ok]))).sinkLog = [.transfer .cmd [0x33#8] .ok] ∧
    (nextOf s16 (exec (.invert true) (onDisplay 16 16 [.err]))).inv = true ∧
    respAfter (.invert true) (onDisplay 16 16 [.err]) = some 0x20#8 := by decide

/-- F1: the three transfers, with the 4 x 16 page RAM of 2.7. -/
theorem test_flush :
    (nextOf s16 (exec .flush { onDisplay 4 16 [.ok, .ok, .ok] with fb := [(0, 1#8), (5, 2#8), (7, 0x80#8)] })).sinkLog
      = [.transfer .cmd [0x31#8, 0x00#8, 0x03#8] .ok, .transfer .cmd [0x32#8, 0x00#8, 0x01#8] .ok,
         .transfer .data [1#8, 0#8, 0#8, 0#8, 0#8, 2#8, 0#8, 0x80#8] .ok] := by decide

/-- F3: nothing is offered after a refusal. -/
theorem test_flush_refused :
    (nextOf s16 (exec .flush (onDisplay 4 16 [.ok, .err, .ok]))).sinkLog
      = [.transfer .cmd [0x31#8, 0x00#8, 0x03#8] .ok, .transfer .cmd [0x32#8, 0x00#8, 0x01#8] .err] ∧
    respAfter .flush (onDisplay 4 16 [.ok, .err, .ok]) = some 0x20#8 := by decide

/-! ### Ports and reset, one step each -/

/-- The state of a FAILED 16 x 16 block. -/
def failed16 : State := { s16 with phase := .failed, rstOut := false }

/-- Q1, Q2, Q3. -/
theorem test_priority : (stepped { s16 with port := [0#64] }).resp = some 0x10#8 ∧
    (stepped { failed16 with port := [0#64] }).resp = some 0x30#8 ∧
    (stepped { failed16 with port := [0x7000000000000000#64] }).sinkLog = [] := by decide

/-- S5: a command presented during the reset sequence is held. -/
theorem test_held_during_reset :
    (stepped { s16 with phase := .reset .waitDeasserted, port := [0#64] }).port = [0#64] := by decide

/-- S4, and S2's refusal of an entry. -/
theorem test_reset_refused :
    (stepped { s16 with phase := .reset .assertPin, answers := [.err] }).phase = .failed ∧
    (stepped { s16 with phase := .reset (.entry 1), answers := [.err] }).sinkLog
      = [.transfer .cmd [0x42#8, 0x43#8] .err] := by decide

/-- S6: a reset after the first transfer of a FLUSH. -/
theorem test_reset_during_flush :
    (stepped { onDisplay 4 16 [.ok, .ok, .ok] with
        port := [0x7000000000000000#64], agenda := [.resetDuring 1] }).sinkLog
      = [.transfer .cmd [0x31#8, 0x00#8, 0x03#8] .ok] := by decide

/-- R164 on R100's order and on R110's: a reset after three of the writes of SETRECT 0, 0, 2, 2, 1, and after one of
CLEAR's. -/
theorem test_reset_during_drawing :
    (stepped { s16 with port := [0x4100000000002002#64], agenda := [.resetDuring 3] }).fb
      = [(0, 0x03#8), (1, 0x01#8)] ∧
    (stepped { s16 with port := [0x1000000000000000#64], agenda := [.resetDuring 1], fb := [(0, 0xFF#8), (1, 0xFF#8)] }).fb
      = [(1, 0xFF#8)] := by decide

/-- The open parameters of the reset instance make a legal configuration, with a conforming table (R163). -/
theorem test_reset_instance : legal State.reset.cfg = true ∧
    State.reset.cfg.initTable.length = 11 ∧ State.reset.cfg.initTable[1]? = some [Config.openInitCommand .multiplexRatio, 0x3F#8] := by
  exact ⟨by decide, rfl, rfl⟩

/-- W6: on the 64-row instance the multiplex entry carries `0x3F`. -/
theorem test_reset_table_conforms : State.reset.cfg.conforms (Config.settingOrder.map some) = true := by decide

/-! ### Witnesses: for every statement with hypotheses, a state and operands that meet them, clause by clause -/

/-- The step of `s` ends in a next state. -/
def goesOn (s : State) : Bool :=
  match step s with
  | .next _ => true
  | .fault _ => false
  | .refused _ => false

theorem step_of_goesOn {s : State} (h : goesOn s = true) : step s = .next (stepped s) := by
  unfold goesOn at h
  unfold stepped nextOf
  split at h
  next t e => rw [e]
  next => cases h
  next => cases h

theorem exec_next (i : Instr) (s : State) : exec i s = .next (nextOf s (exec i s)) := by
  cases i <;> rfl

/-- `s16` with `cmd` held at the port. -/
def offering (cmd : Word) : State := { s16 with port := [cmd] }

/-- `failed16` with `cmd` held at the port. -/
def failedOffering (cmd : Word) : State := { failed16 with port := [cmd] }

/-- `s16` where the reset sequence stands at `p`, and the sink refuses the next action. -/
def refusing (p : SeqPoint) : State := { s16 with phase := .reset p, answers := [.err] }

/-- `s16` with reset asserted, about to be released, with a drawn page RAM and `INV` set. -/
def releasing : State :=
  { s16 with resetIn := true, agenda := [.releaseReset], fb := [(0, 0xFF#8)], inv := true, answers := [.ok, .ok, .ok, .ok] }

theorem legal_s16 : legal s16.cfg = true := by decide

theorem undisturbed_offering (cmd : Word) : Undisturbed (offering cmd) ∧ Offers (offering cmd) cmd :=
  ⟨⟨legal_s16, rfl, rfl, .inl rfl⟩, rfl, rfl, rfl⟩

theorem undisturbed_failedOffering (cmd : Word) : Undisturbed (failedOffering cmd) ∧ Offers (failedOffering cmd) cmd :=
  ⟨⟨legal_s16, rfl, rfl, .inl rfl⟩, rfl, rfl, rfl⟩

theorem inv_onDisplay {w h : Nat} (hl : legal (display w h) = true) (l : List SinkAnswer) : Inv (onDisplay w h l) where
  buildable := hl
  running := rfl
  canonical := rfl
  bounded := rfl
  busyPending := fun _ => rfl
  pendingByte := fun _ h => by cases h
  takenBytes := fun _ h => by cases h
  resetValues := fun _ h => by cases h
  failedValues := fun h => by cases h
  pinLevel := fun _ h => by injection h
  entryInTable := fun _ h => by cases h

/-! #### Reset, configuration, invariant -/

theorem witness_ResetMeetsInvariant : legal (display 1 8) = true ∧ legal (display 256 2040) = true := by decide

theorem witness_StepKeepsInvariant : Inv s16 ∧ step s16 = .next (stepped s16) :=
  ⟨inv_onDisplay (by decide) [], step_of_goesOn (by decide)⟩

theorem witness_InvariantBlockNeverStops : Inv (onDisplay 1 8 []) ∧ Inv (onDisplay 256 2040 []) :=
  ⟨inv_onDisplay (by decide) [], inv_onDisplay (by decide) []⟩

theorem witness_IllegalConfigurationRefused_outside :
    ¬(1 ≤ (onDisplay 257 8 []).cfg.width ∧ (onDisplay 257 8 []).cfg.width ≤ 256 ∧ 8 ≤ (onDisplay 257 8 []).cfg.height ∧
      (onDisplay 257 8 []).cfg.height ≤ 2040 ∧ (onDisplay 257 8 []).cfg.height % 8 = 0) := by decide

theorem witness_IllegalConfigurationRefused_inside (c : Config) (h : c = display 256 2040 ∨ c = display 1 8) :
    1 ≤ c.width ∧ c.width ≤ 256 ∧ 8 ≤ c.height ∧ c.height ≤ 2040 ∧ c.height % 8 = 0 ∧ ∀ e ∈ c.initTable, e ≠ [] := by
  rcases h with rfl | rfl <;> decide

theorem witness_ConfigurationNeverChanges : step releasing = .next (stepped releasing) := step_of_goesOn (by decide)

theorem witness_BlockStuckBeforeFirstReset (a : List Event) (h : a = [] ∨ a = [.run]) :
    legal { s16 with started := false, agenda := a }.cfg = true ∧
    { s16 with started := false, agenda := a }.started = false ∧
    { s16 with started := false, agenda := a }.resetIn = false ∧
    ({ s16 with started := false, agenda := a }.agenda.head? = none ∨
      { s16 with started := false, agenda := a }.agenda.head? = some .run) :=
  ⟨legal_s16, rfl, rfl, by rcases h with rfl | rfl <;> decide⟩

theorem witness_ResetInputHoldsAndReleases :
    (legal s16.cfg = true ∧ { s16 with agenda := [.assertReset] }.agenda.head? = some .assertReset) ∧
    ({ s16 with resetIn := true }.resetIn = true ∧ { s16 with resetIn := true }.agenda.head? = none) ∧
    (releasing.resetIn = true ∧ releasing.agenda.head? = some .releaseReset) := by decide

theorem witness_AcceptedResetReachesReady :
    legal releasing.cfg = true ∧ releasing.resetIn = true ∧ releasing.agenda = [.releaseReset] ∧
    ∀ k, k < releasing.cfg.initTable.length + 2 → releasing.answerAt k = .ok := by decide

theorem witness_RefusedResetActionFails (p : SeqPoint) : Undisturbed (refusing p) ∧ (refusing p).nextAnswer = .err ∧
    (refusing p).phase = .reset p :=
  ⟨⟨legal_s16, rfl, rfl, .inl rfl⟩, rfl, rfl⟩

/-- The table's first and last entries. -/
theorem witness_RefusedResetActionFails_entry :
    (refusing (.entry 0)).cfg.initTable[0]? = some [0x41#8] ∧
    (refusing (.entry 1)).cfg.initTable[1]? = some [0x42#8, 0x43#8] := by decide

theorem witness_FailedLastsUntilReset_answer :
    (Undisturbed (failedOffering 0#64) ∧ Offers (failedOffering 0#64) 0#64) ∧ (failedOffering 0#64).phase = .failed ∧
    (Undisturbed (failedOffering 0x7000000000000000#64) ∧
      Offers (failedOffering 0x7000000000000000#64) 0x7000000000000000#64) :=
  ⟨undisturbed_failedOffering _, rfl, undisturbed_failedOffering _⟩

theorem witness_FailedLastsUntilReset_lasts : failed16.phase = .failed ∧ step failed16 = .next (stepped failed16) :=
  ⟨rfl, step_of_goesOn (by decide)⟩

/-- And the case in which `FAILED` is left. -/
theorem witness_FailedLastsUntilReset_left :
    { failed16 with resetIn := true, agenda := [.releaseReset] }.phase = .failed ∧
    step { failed16 with resetIn := true, agenda := [.releaseReset] } =
      .next (stepped { failed16 with resetIn := true, agenda := [.releaseReset] }) :=
  ⟨rfl, step_of_goesOn (by decide)⟩

/-! #### Encoding -/

/-- A word for each clause: the seven rows with their operand fields at an extreme, and words of no row. -/
theorem witness_DecodeFollowsMatchAndMask :
    0x1000000000000000#64 &&& 0xFFFFFFFFFFFFFFFF#64 = 0x1000000000000000#64 ∧
    0x21008007FF000000#64 &&& 0xFEFF000000FFFFFF#64 = 0x2000000000000000#64 ∧
    0x3000FFF7FF000000#64 &&& 0xFFFF000000FFFFFF#64 = 0x3000000000000000#64 ∧
    0x4100800800800800#64 &&& 0xFEFF000000000000#64 = 0x4000000000000000#64 ∧
    0x50807FF7FF7FF7FF#64 &&& 0xFF00000000000000#64 = 0x5000000000000000#64 ∧
    0x6100000000000000#64 &&& 0xFEFFFFFFFFFFFFFF#64 = 0x6000000000000000#64 ∧
    0x7000000000000000#64 &&& 0xFFFFFFFFFFFFFFFF#64 = 0x7000000000000000#64 ∧
    (∀ r ∈ opcodeRows, r.hits 0#64 = false) ∧ (∀ r ∈ opcodeRows, r.hits 0x7000000000000001#64 = false) ∧
    (∃ r ∈ opcodeRows, r.hits 0x7000000000000000#64 = true) := by decide

theorem witness_ReservedOpcodesIllegal_opcode : fieldOP 0#64 = 0x0#4 ∧ 0x8#4 ≤ fieldOP 0x8000000000000000#64 ∧
    0x8#4 ≤ fieldOP 0xFFFFFFFFFFFFFFFF#64 := by decide

theorem witness_ReservedOpcodesIllegal_answer :
    (Undisturbed (offering 0#64) ∧ Offers (offering 0#64) 0#64) ∧ (offering 0#64).phase = .ready :=
  ⟨undisturbed_offering _, rfl⟩

theorem witness_DecodeInvertsEncode : Instr.clear.wf = true ∧ (Instr.setpx (-2048) 2047 true).wf = true ∧
    (Instr.getpx 2047 (-2048)).wf = true ∧ (Instr.setrect (-2048) 2047 (-2048) 2047 false).wf = true ∧
    (Instr.chkrect 2047 (-2048) 2047 (-2048) (-128)).wf = true ∧ (Instr.chkrect 0 0 0 0 127).wf = true ∧
    (Instr.invert true).wf = true ∧ Instr.flush.wf = true ∧ (Instr.fillrect (-2048) 2047 2047 (-2048)).wf = true ∧
    (Instr.clrrect 2047 2047 (-2048) (-2048)).wf = true := by decide

theorem witness_EncodeInvertsDecode : decode 0x21008007FF000000#64 = .ok (.setpx (-2048) 2047 true) ∧
    decode 0x5080000000000000#64 = .ok (.chkrect 0 0 0 0 (-128)) := by decide

/-- Each field at the ends of its range, and just past them. -/
theorem witness_AssemblerFollowsFormula : RangeS12 (-2048) ∧ RangeS12 2047 ∧ RangeS8 (-128) ∧ RangeS8 127 ∧
    ¬RangeS12 2048 ∧ ¬RangeS12 (-2049) ∧ ¬RangeS8 128 ∧ ¬RangeS8 (-129) := by
  unfold RangeS12 RangeS8; omega

/-! #### Ports and responses -/

theorem witness_StepRunsDecodedCommand :
    (Undisturbed (offering 0x210000500A000000#64) ∧ Offers (offering 0x210000500A000000#64) 0x210000500A000000#64) ∧
    (offering 0x210000500A000000#64).phase = .ready ∧ decode 0x210000500A000000#64 = .ok (.setpx 5 10 true) :=
  ⟨undisturbed_offering _, rfl, by decide⟩

theorem witness_FetchedWordRunsNext : legal s16.cfg = true ∧ s16.phase ≠ .failed ∧
    0x7000000000000000 < 2 ^ 64 ∧ decode (BitVec.ofNat 64 0x7000000000000000) = .ok .flush := by decide

theorem witness_CommandChecksInOrder_failed :
    (Undisturbed (failedOffering 0#64) ∧ Offers (failedOffering 0#64) 0#64) ∧ (failedOffering 0#64).phase = .failed :=
  ⟨undisturbed_failedOffering _, rfl⟩

theorem witness_CommandChecksInOrder_illegal :
    (Undisturbed (offering 0x1000000000000001#64) ∧ Offers (offering 0x1000000000000001#64) 0x1000000000000001#64) ∧
    (offering 0x1000000000000001#64).phase = .ready ∧ ∀ r ∈ opcodeRows, r.hits 0x1000000000000001#64 = false :=
  ⟨undisturbed_offering _, rfl, by decide⟩

theorem witness_CommandChecksInOrder_runs :
    (Undisturbed (offering 0x1000000000000000#64) ∧ Offers (offering 0x1000000000000000#64) 0x1000000000000000#64) ∧
    (offering 0x1000000000000000#64).phase = .ready ∧ decode 0x1000000000000000#64 = .ok .clear :=
  ⟨undisturbed_offering _, rfl, by decide⟩

theorem witness_EveryCommandAnswersOnce : s16.phase = .ready ∧ failed16.phase = .failed := ⟨rfl, rfl⟩

theorem witness_SinkErrorOnlyWhenRefused :
    (onDisplay 4 16 [.ok, .ok, .err]).phase = .ready ∧ (onDisplay 4 16 [.ok, .ok, .err]).answerAt 2 = .err ∧
    exec .flush (onDisplay 4 16 [.ok, .ok, .err]) =
      .next (nextOf (onDisplay 4 16 [.ok, .ok, .err]) (exec .flush (onDisplay 4 16 [.ok, .ok, .err]))) :=
  ⟨rfl, rfl, exec_next _ _⟩

theorem witness_PortAcceptsOnlyWhenOpen_step :
    step (offering 0x1000000000000000#64) = .next (stepped (offering 0x1000000000000000#64)) ∧
    step { s16 with agenda := [.present 0#64] } = .next (stepped { s16 with agenda := [.present 0#64] }) :=
  ⟨step_of_goesOn (by decide), step_of_goesOn (by decide)⟩

theorem witness_PortAcceptsOnlyWhenOpen_accepts : (Undisturbed (offering 0#64) ∧ Offers (offering 0#64) 0#64) ∧
    (∀ p, (offering 0#64).phase ≠ .reset p) ∧ (offering 0#64).busy = false ∧ (offering 0#64).resp = none ∧
    (offering 0#64).port = 0#64 :: [] :=
  ⟨undisturbed_offering _, nofun, rfl, rfl, rfl⟩

/-- A host that keeps its ready line down, with a command waiting behind the response. -/
def blocked : State := { offering 0#64 with busy := true, resp := some 0x01#8, respReady := false }

theorem witness_PortAcceptsOnlyWhenOpen_blocks : Undisturbed blocked ∧ (∀ p, blocked.phase ≠ .reset p) ∧
    blocked.resp.isSome = true ∧ blocked.respReady = false ∧ blocked.agenda = [] :=
  ⟨⟨by decide, rfl, rfl, .inl rfl⟩, nofun, rfl, rfl, rfl⟩

/-- The outside world moves while a response is pending: it is held; it is taken; a reset is released. -/
theorem witness_ResponseHeldUntilTaken_steps :
    step { blocked with agenda := [.present 0#64] } = .next (stepped { blocked with agenda := [.present 0#64] }) ∧
    { blocked with agenda := [.present 0#64] }.resp = some 0x01#8 ∧
    step { blocked with respReady := true } = .next (stepped { blocked with respReady := true }) ∧
    step { blocked with resetIn := true, agenda := [.releaseReset] } =
      .next (stepped { blocked with resetIn := true, agenda := [.releaseReset] }) :=
  ⟨step_of_goesOn (by decide), rfl, step_of_goesOn (by decide), step_of_goesOn (by decide)⟩

/-- A step of each of its cases: accepted, abandoned, taken, released. -/
theorem witness_BusyAndRespWrittenOnlyByHandshakes :
    (step (offering 0#64) = .next (stepped (offering 0#64)) ∧ (stepped (offering 0#64)).busy ≠ (offering 0#64).busy) ∧
    (step { offering 0#64 with agenda := [.resetDuring 0] } =
        .next (stepped { offering 0#64 with agenda := [.resetDuring 0] }) ∧
      (stepped { offering 0#64 with agenda := [.resetDuring 0] }).busy ≠ (offering 0#64).busy) ∧
    (step { blocked with respReady := true } = .next (stepped { blocked with respReady := true }) ∧
      (stepped { blocked with respReady := true }).resp ≠ blocked.resp) ∧
    (step { blocked with resetIn := true, agenda := [.releaseReset] } =
        .next (stepped { blocked with resetIn := true, agenda := [.releaseReset] }) ∧
      (stepped { blocked with resetIn := true, agenda := [.releaseReset] }).resp ≠ blocked.resp) :=
  ⟨⟨step_of_goesOn (by decide), by decide⟩, ⟨step_of_goesOn (by decide), by decide⟩,
    ⟨step_of_goesOn (by decide), by decide⟩, ⟨step_of_goesOn (by decide), by decide⟩⟩

theorem witness_ResponseHeldUntilTaken_held : Undisturbed blocked ∧ (∀ p, blocked.phase ≠ .reset p) ∧
    blocked.resp = some 0x01#8 ∧ blocked.respReady = false :=
  ⟨⟨by decide, rfl, rfl, .inl rfl⟩, nofun, rfl, rfl⟩

theorem witness_ResponseHeldUntilTaken_taken : Undisturbed { blocked with respReady := true } ∧
    (∀ p, { blocked with respReady := true }.phase ≠ .reset p) ∧ { blocked with respReady := true }.resp = some 0x01#8 ∧
    { blocked with respReady := true }.respReady = true :=
  ⟨⟨by decide, rfl, rfl, .inl rfl⟩, nofun, rfl, rfl⟩

/-- A FLUSH whose second transfer is refused: the hypotheses, and the prefixes of nothing and of everything. -/
def flushing : State := { onDisplay 4 16 [.ok, .err] with port := [0x7000000000000000#64] }

theorem witness_AbandonedCommandLeavesPrefix : legal flushing.cfg = true ∧ flushing.started = true ∧
    flushing.resetIn = false ∧ flushing.phase = .ready ∧ Offers flushing 0x7000000000000000#64 ∧
    decode 0x7000000000000000#64 = .ok .flush ∧
    exec .flush flushing = .next (nextOf flushing (exec .flush flushing)) ∧
    (nextOf flushing (exec .flush flushing)).sinkLog =
      flushing.sinkLog ++ [.transfer .cmd [0x31#8, 0x00#8, 0x03#8] .ok] ++
        [.transfer .cmd [0x32#8, 0x00#8, 0x01#8] .err] :=
  ⟨by decide, rfl, rfl, rfl, ⟨rfl, rfl, rfl⟩, by decide, exec_next _ _, by decide⟩

/-- The hypotheses on the state, whatever the word, and a word of each clause. -/
theorem witness_AbandonedCommandLeavesFirstWrites (cmd : Word) : legal (offering cmd).cfg = true ∧
    (offering cmd).fb.wf = true ∧ (offering cmd).started = true ∧ (offering cmd).resetIn = false ∧
    (offering cmd).phase = .ready ∧ Offers (offering cmd) cmd :=
  ⟨legal_s16, rfl, rfl, rfl, rfl, rfl, rfl, rfl⟩

theorem witness_AbandonedCommandLeavesFirstWrites_words :
    decode 0x210000500A000000#64 = .ok (.setpx 5 10 true) ∧
    decode 0x4100FFDFFD005005#64 = .ok (.setrect (-3) (-3) 5 5 true) ∧
    decode 0x5004000000008008#64 = .ok (.chkrect 0 0 8 8 4) ∧ decode 0x1000000000000000#64 = .ok .clear ∧
    decode 0x300000500A000000#64 = .ok (.getpx 5 10) ∧ decode 0x6100000000000000#64 = .ok (.invert true) := by decide

theorem witness_SingleEffectsMakeTheCommand : legal releasing.cfg = true ∧ releasing.fb.wf = true := by decide

/-! #### Who writes what -/

theorem witness_PageRamWrittenOnlyByDrawing :
    step (offering 0x210000500A000000#64) = .next (stepped (offering 0x210000500A000000#64)) ∧
    (stepped (offering 0x210000500A000000#64)).fb ≠ (offering 0x210000500A000000#64).fb ∧
    step releasing = .next (stepped releasing) ∧ (stepped releasing).fb ≠ releasing.fb :=
  ⟨step_of_goesOn (by decide), by decide, step_of_goesOn (by decide), by decide⟩

theorem witness_InvWrittenOnlyByInvert :
    step { offering 0x6100000000000000#64 with answers := [.ok] } =
      .next (stepped { offering 0x6100000000000000#64 with answers := [.ok] }) ∧
    (stepped { offering 0x6100000000000000#64 with answers := [.ok] }).inv ≠ (offering 0x6100000000000000#64).inv ∧
    step releasing = .next (stepped releasing) ∧ (stepped releasing).inv ≠ releasing.inv :=
  ⟨step_of_goesOn (by decide), by decide, step_of_goesOn (by decide), by decide⟩

theorem witness_PhaseAndPinWrittenOnlyByReset :
    step releasing = .next (stepped releasing) ∧ (stepped releasing).phase ≠ releasing.phase ∧
    step { s16 with phase := .reset .assertPin, answers := [.ok] } =
      .next (stepped { s16 with phase := .reset .assertPin, answers := [.ok] }) ∧
    (stepped { s16 with phase := .reset .assertPin, answers := [.ok] }).rstOut ≠
      { s16 with phase := .reset .assertPin, answers := [.ok] }.rstOut :=
  ⟨step_of_goesOn (by decide), by decide, step_of_goesOn (by decide), by decide⟩

theorem witness_OutputsOnlyGrow : step flushing = .next (stepped flushing) ∧
    (stepped flushing).sinkLog ≠ flushing.sinkLog ∧
    step { blocked with respReady := true } = .next (stepped { blocked with respReady := true }) ∧
    (stepped { blocked with respReady := true }).taken = [0x01#8] :=
  ⟨step_of_goesOn (by decide), by decide, step_of_goesOn (by decide), by decide⟩

theorem witness_DrawingCommandsFrame :
    (∀ v, Instr.clear ≠ .invert v) ∧ Instr.clear ≠ .flush ∧ exec .clear s16 = .next (nextOf s16 (exec .clear s16)) ∧
    (∀ v, Instr.getpx 5 10 ≠ .invert v) ∧ Instr.getpx 5 10 ≠ .flush :=
  ⟨nofun, nofun, exec_next _ _, nofun, nofun⟩

theorem witness_InvTakesNoPart : (∀ v, Instr.flush ≠ .invert v) ∧
    exec .flush s16 = .next (nextOf s16 (exec .flush s16)) ∧ (onDisplay 4 16 [.ok, .ok]).phase = .ready ∧
    (onDisplay 4 16 [.ok, .ok]).answerAt 0 = .ok ∧ (onDisplay 4 16 [.ok, .ok]).answerAt 1 = .ok ∧
    exec .flush (onDisplay 4 16 [.ok, .ok]) =
      .next (nextOf (onDisplay 4 16 [.ok, .ok]) (exec .flush (onDisplay 4 16 [.ok, .ok]))) :=
  ⟨nofun, exec_next _ _, rfl, rfl, rfl, exec_next _ _⟩

/-! #### Pixels -/

/-- The largest display, with its last pixel. -/
theorem witness_CoordinateHelpersFollowFormulas :
    legal (display 256 2040) = true ∧ 255 < (display 256 2040).width ∧ 2039 < (display 256 2040).height := by decide

theorem witness_PagesPackEightRows : legal (display 256 2040) = true ∧ 255 < (display 256 2040).width ∧
    254 < npages (display 256 2040) ∧ 7 < 8 ∧ 65279 < nbytes (display 256 2040) ∧
    nbytes (display 256 2040) = 65280 := by decide

theorem witness_SetpxWritesClampedPixel : legal s16.cfg = true ∧ s16.fb.wf = true ∧ s16.phase = .ready := by decide

theorem witness_SetpxChangesOneBit : releasing.fb.wf = true ∧ releasing.phase = .ready ∧
    exec (.setpx 0 3 false) releasing = .next (nextOf releasing (exec (.setpx 0 3 false) releasing)) ∧
    (fbAfter (.setpx 0 3 false) releasing).read 0 = 0xF7#8 :=
  ⟨by decide, rfl, exec_next _ _, by decide⟩

theorem witness_ClampingIsPerCoordinate :
    legal s16.cfg = true ∧ (display 128 64).width = 128 ∧ (display 128 64).height = 64 := by decide

theorem witness_GetpxAnswersPixel : s16.phase = .ready := rfl

/-- The pixel written is the corner `(0, 15)`; the pixel beside it, `(0, 14)`, is another. -/
theorem witness_PixelRoundTrip : (legal s16.cfg = true ∧ s16.fb.wf = true ∧ s16.phase = .ready) ∧
    exec (.setpx (-1) 16 true) s16 = .next (nextOf s16 (exec (.setpx (-1) 16 true) s16)) ∧
    (cx s16.cfg 0, cy s16.cfg 14) ≠ (cx s16.cfg (-1), cy s16.cfg 16) :=
  ⟨by decide, exec_next _ _, by decide⟩

/-! #### Regions -/

/-- The hypotheses of each clause of the closed form, at the least width and height. -/
theorem witness_SetrectClosedForm : (legal s16.cfg = true ∧ s16.fb.wf = true ∧ s16.phase = .ready ∧ (1 : Int) ≤ 1) ∧
    ((15 : Int) < s16.cfg.width ∧ (0 : Int) < 15 + 1 ∧ (-4 : Int) < s16.cfg.height ∧ (0 : Int) < -4 + 5) ∧
    ((s16.cfg.width : Int) ≤ 16) ∧ ((-1 : Int) + 1 - 1 < 0) ∧ ((s16.cfg.height : Int) ≤ 16) := by decide

/-- The example's display. -/
theorem witness_SetrectClosedForm_example : legal (onDisplay 128 8 []).cfg = true ∧ (onDisplay 128 8 []).fb.wf = true ∧
    (onDisplay 128 8 []).phase = .ready ∧ (onDisplay 128 8 []).cfg.width = 128 ∧
    (fbAfter (.setrect 200 0 10 8 true) (onDisplay 128 8 [])).read 127 = 0xFF#8 := by decide

theorem witness_SetrectEqualsNestedLoop : legal s16.cfg = true ∧ s16.fb.wf = true ∧ s16.phase = .ready := by decide

theorem witness_SetrectEmptyWritesNothing : releasing.fb.wf = true ∧ releasing.phase = .ready ∧
    ((0 : Int) ≤ 0 ∨ (5 : Int) ≤ 0) ∧ ((5 : Int) ≤ 0 ∨ (-2048 : Int) ≤ 0) := by decide

theorem witness_FillrectAndClrrectPaint : legal s16.cfg = true ∧ s16.fb.wf = true ∧ s16.phase = .ready ∧
    0 < s16.cfg.width ∧ 15 < s16.cfg.height := by decide

theorem witness_ChkrectPaintsCheckerboard : legal s16.cfg = true ∧ s16.fb.wf = true ∧ s16.phase = .ready ∧
    15 < s16.cfg.width ∧ 0 < s16.cfg.height := by decide

theorem witness_ChkrectEqualsNestedLoop : legal s16.cfg = true ∧ s16.fb.wf = true ∧ s16.phase = .ready := by decide

theorem witness_CheckerboardExampleBytes : legal (onDisplay 8 8 []).cfg = true ∧ 8 ≤ (onDisplay 8 8 []).cfg.width ∧
    (onDisplay 8 8 []).phase = .ready ∧ (onDisplay 8 8 []).fb = [] := by decide

theorem witness_ClearZeroesPageRam : releasing.phase = .ready ∧ releasing.fb.within (nbytes releasing.cfg) = true ∧
    31 < nbytes releasing.cfg := by decide

theorem witness_ClearEqualsClrrectOfDisplay :
    legal (onDisplay 256 2040 []).cfg = true ∧ legal (onDisplay 1 8 []).cfg = true := by decide

/-! #### Display control -/

theorem witness_InvertRecordsThenEmits : s16.phase = .ready := rfl

theorem witness_FlushSendsWindowsThenPageRam : (onDisplay 4 16 [.ok, .ok, .ok]).phase = .ready ∧
    (onDisplay 4 16 [.ok, .ok, .ok]).answerAt 0 = .ok ∧ (onDisplay 4 16 [.ok, .ok, .ok]).answerAt 1 = .ok ∧
    (onDisplay 4 16 [.ok, .ok, .ok]).answerAt 2 = .ok ∧
    (onDisplay 128 64 [.ok, .ok, .ok]).cfg.width = 128 ∧ (onDisplay 128 64 [.ok, .ok, .ok]).cfg.height = 64 := by
  decide

/-- Each of the three refusals. -/
theorem witness_FlushStopsAtRefusal : (onDisplay 4 16 [.err]).phase = .ready ∧ (onDisplay 4 16 [.err]).answerAt 0 = .err ∧
    (onDisplay 4 16 [.ok, .err]).answerAt 0 = .ok ∧ (onDisplay 4 16 [.ok, .err]).answerAt 1 = .err ∧
    (onDisplay 4 16 [.ok, .ok, .err]).answerAt 0 = .ok ∧ (onDisplay 4 16 [.ok, .ok, .err]).answerAt 1 = .ok ∧
    (onDisplay 4 16 [.ok, .ok, .err]).answerAt 2 = .err := by decide

theorem witness_FlushLeavesBlockUnchanged : exec .flush flushing = .next (nextOf flushing (exec .flush flushing)) :=
  exec_next _ _

/-- A 4 x 16 display whose sink accepts six transfers, and what the first FLUSH leaves. -/
def accepting : State := onDisplay 4 16 [.ok, .ok, .ok, .ok, .ok, .ok]

theorem witness_FlushTwiceEmitsTwice : accepting.phase = .ready ∧ (∀ k, k < 6 → accepting.answerAt k = .ok) ∧
    exec .flush accepting = .next (nextOf accepting (exec .flush accepting)) ∧
    exec .flush (nextOf accepting (exec .flush accepting)) =
      .next (nextOf (nextOf accepting (exec .flush accepting)) (exec .flush (nextOf accepting (exec .flush accepting)))) :=
  ⟨rfl, by decide, exec_next _ _, exec_next _ _⟩

end Sys2Proof.Tests
end

section
/-! SUPPORT. The family `00_scope`: when a step refuses a configuration (R8), and the formulas of the coordinate
helpers on a legal display (R13). -/

namespace Sys2Proof.Machine

/-! ### Refused configurations (R8) -/

/-- Only an illegal configuration leaves the block without an action. -/
theorem nextAction_eq_unbuildable_iff (s : State) : nextAction s = .unbuildable ↔ legal s.cfg = false := by
  constructor
  · intro h
    have hact := actionOf_nextAction s
    rwa [h] at hact
  · intro hl
    rw [nextAction, if_pos hl]

/-- The refusal of a configuration comes from its check alone: no event and no command of a legal block ends in it. -/
theorem step_eq_refused_illegalConfiguration_iff (s : State) :
    step s = .refused .illegalConfiguration ↔ legal s.cfg = false := by
  rw [← nextAction_eq_unbuildable_iff]
  unfold step
  cases nextAction s with
  | command cmd =>
    obtain ⟨t, ht⟩ := runCommand_next cmd s.tick.accept
    simp [ht]
  | _ => simp

/-- Settles O5: the refusal is the failure of `legal`, which is R8's ranges and R163's non-empty entries. -/
theorem illegalConfigurationRefused : Obligations.IllegalConfigurationRefused := by
  intro s
  rw [ne_eq, step_eq_refused_illegalConfiguration_iff, Bool.not_eq_false, ← Bool.not_eq_true, legal_iff]
  constructor
  · rintro outside ⟨hw, hw', hh, hh', h8, -⟩
    exact outside ⟨hw, hw', hh, hh', h8⟩
  · intro hw hw' hh hh' h8 entries
    exact ⟨hw, hw', hh, hh', h8, entries⟩

/-! ### The coordinate helpers (R13) -/

/-- A clamp whose lower bound is 0 is a natural number: nothing is lost by holding it as one. -/
theorem toNat_clamp_zero (v : Int) {hi : Int} (h : 0 ≤ hi) : ((clamp v 0 hi).toNat : Int) = min (max v 0) hi :=
  Int.toNat_of_nonneg (le_min (le_max_right v 0) h)

/-- Settles O38: the clamps are R13's because a legal display has a column and a row, and the indices are R13's by
definition. -/
theorem coordinateHelpersFollowFormulas : Obligations.CoordinateHelpersFollowFormulas := by
  intro c hl
  have hw := legal_width_pos hl
  have hh := legal_height_pos hl
  refine ⟨fun x => ?_, fun y => ?_, fun _ _ _ _ => ⟨rfl, rfl⟩⟩
  · exact toNat_clamp_zero x (by omega)
  · exact toNat_clamp_zero y (by omega)

end Sys2Proof.Machine
end

section
/-! SUPPORT. The family `10_state`: every step to a next state, once, as one of five kinds with its frame (`StepKind`),
and from it the invariant, who writes which part of the state, and how long a response is held. -/

namespace Sys2Proof.Machine

/-! ### What the outside world and the reset sequence write -/

/-- An event reaches no further than the ports and the reset input, unless it releases an asserted reset (R160). -/
theorem applyEvent_cases (e : Event) (s : State) :
    (applyEvent e s = { s with
        port := (applyEvent e s).port, respReady := (applyEvent e s).respReady, resetIn := (applyEvent e s).resetIn } ∧
      (s.resetIn = true → (applyEvent e s).resetIn = true)) ∨
    (e = .releaseReset ∧ s.resetIn = true ∧ applyEvent e s = s.beginReset) := by
  cases e with
  | releaseReset =>
    cases hr : s.resetIn with
    | true => exact .inr ⟨rfl, rfl, by simp [applyEvent, hr]⟩
    | false =>
      have held : applyEvent .releaseReset s = s := by simp [applyEvent, hr]
      exact .inl ⟨by rw [held], nofun⟩
  | run => exact .inl ⟨rfl, id⟩
  | present cmd => exact .inl ⟨rfl, id⟩
  | setReady level => exact .inl ⟨rfl, id⟩
  | assertReset => exact .inl ⟨rfl, fun _ => rfl⟩
  | resetDuring done => exact .inl ⟨rfl, fun _ => rfl⟩

/-- An action of the reset sequence writes `PHASE`, the pin and the sink's side, and nothing else. -/
theorem sequenceStep_frame (p : SeqPoint) (s : State) :
    sequenceStep p s = { s with
      phase := (sequenceStep p s).phase, rstOut := (sequenceStep p s).rstOut, answers := (sequenceStep p s).answers
      draws := (sequenceStep p s).draws, sinkLog := (sequenceStep p s).sinkLog } := by
  cases p with
  | assertPin => cases ha : s.nextAnswer <;> simp [sequenceStep, assertPin, ha]
  | waitAsserted => rfl
  | deassertPin => cases ha : s.nextAnswer <;> simp [sequenceStep, deassertPin, ha]
  | waitDeasserted => rfl
  | entry k =>
    cases hk : s.cfg.initTable[k]? with
    | none => simp [sequenceStep, offerEntry, hk]
    | some bytes => cases ha : s.nextAnswer <;> simp [sequenceStep, offerEntry, hk, ha]

/-- Where an action of the reset sequence leads, and what it does to the pin (R160, R162). -/
theorem sequenceStep_cases (p : SeqPoint) (s : State) :
    ((sequenceStep p s).phase = .failed ∧ (p ≠ .assertPin → (sequenceStep p s).rstOut = s.rstOut)) ∨
    (p = .assertPin ∧ (sequenceStep p s).phase = .reset .waitAsserted ∧
      (sequenceStep p s).rstOut = s.cfg.rstActiveLevel) ∨
    (p = .waitAsserted ∧ (sequenceStep p s).phase = .reset .deassertPin ∧ (sequenceStep p s).rstOut = s.rstOut) ∨
    (p = .deassertPin ∧ (sequenceStep p s).phase = .reset .waitDeasserted ∧
      (sequenceStep p s).rstOut = !s.cfg.rstActiveLevel) ∨
    (p = .waitDeasserted ∧ (sequenceStep p s).phase = .reset (.entry 0) ∧ (sequenceStep p s).rstOut = s.rstOut) ∨
    (∃ k, p = .entry k ∧ k < s.cfg.initTable.length ∧ (sequenceStep p s).phase = .reset (.entry (k + 1)) ∧
      (sequenceStep p s).rstOut = s.rstOut) ∨
    (∃ k, p = .entry k ∧ (sequenceStep p s).phase = .ready ∧ (sequenceStep p s).rstOut = s.rstOut) := by
  cases p with
  | assertPin => cases ha : s.nextAnswer <;> simp [sequenceStep, assertPin, ha]
  | waitAsserted => simp [sequenceStep]
  | deassertPin => cases ha : s.nextAnswer <;> simp [sequenceStep, deassertPin, ha]
  | waitDeasserted => simp [sequenceStep]
  | entry k =>
    cases hk : s.cfg.initTable[k]? with
    | none => simp [sequenceStep, offerEntry, hk]
    | some bytes =>
      obtain ⟨hlt, -⟩ := List.getElem?_eq_some_iff.1 hk
      cases ha : s.nextAnswer <;> simp [sequenceStep, offerEntry, ha, hlt]

/-- Only the two pin writes touch the pin (R25). -/
theorem pinWrite_of_sequenceStep_rstOut {p : SeqPoint} {s : State} (h : (sequenceStep p s).rstOut ≠ s.rstOut) :
    p = .assertPin ∨ p = .deassertPin := by
  rcases sequenceStep_cases p s with ⟨-, g⟩ | ⟨rfl, -⟩ | ⟨-, -, g⟩ | ⟨rfl, -⟩ | ⟨-, -, g⟩ | ⟨k, -, -, -, g⟩ |
    ⟨k, -, -, g⟩
  · exact .inl (not_ne_iff.1 fun hp => h (g hp))
  · exact .inl rfl
  · exact absurd g h
  · exact .inr rfl
  all_goals exact absurd g h

/-- After an action of the sequence the pin is at the level the new phase asks for, if it was before: a pin write sets
it, and no other action moves on to a phase with another level (R160). -/
theorem sequenceStep_pinLevel {p : SeqPoint} {s : State}
    (h : ∀ l, writtenLevel s.cfg (.reset p) = some l → s.rstOut = l) {l : Bool}
    (hl : writtenLevel s.cfg (sequenceStep p s).phase = some l) : (sequenceStep p s).rstOut = l := by
  rcases sequenceStep_cases p s with ⟨hq, -⟩ | ⟨-, hq, g⟩ | ⟨rfl, hq, g⟩ | ⟨-, hq, g⟩ | ⟨rfl, hq, g⟩ |
    ⟨k, rfl, -, hq, g⟩ | ⟨k, rfl, hq, g⟩ <;> rw [hq] at hl
  · cases hl
  · exact g.trans (Option.some.inj hl)
  · exact g.trans (h l hl)
  · exact g.trans (Option.some.inj hl)
  all_goals exact g.trans (h l hl)

/-- An action of the sequence moves on to an entry of the table, or to its end. -/
theorem sequenceStep_entry_le {p : SeqPoint} {s : State} {k : Nat}
    (h : (sequenceStep p s).phase = .reset (.entry k)) : k ≤ s.cfg.initTable.length := by
  rcases sequenceStep_cases p s with ⟨hq, -⟩ | ⟨-, hq, -⟩ | ⟨-, hq, -⟩ | ⟨-, hq, -⟩ | ⟨-, hq, -⟩ |
    ⟨j, -, hj, hq, -⟩ | ⟨j, -, hq, -⟩ <;> rw [hq] at h <;> cases h
  · exact Nat.zero_le _
  · exact hj

/-! ### What a run of effects writes -/

/-- The effects that write the page RAM. -/
def Effect.writesPage (e : Effect) : Bool :=
  match e with
  | .store _ => true
  | .writePixel _ _ _ => true
  | .writeByte _ _ => true
  | .setInv _ => false
  | .emit _ _ => false

/-- A run of effects changes the page RAM only by an effect that writes it. -/
theorem State.runEffects_fb (s : State) (es : List Effect) :
    (s.runEffects es).1.fb = s.fb ∨ ∃ e ∈ es, e.writesPage = true := by
  by_cases h : ∃ e ∈ es, e.writesPage = true
  · exact .inr h
  · refine .inl (State.runEffects_keeps (P := fun t => t.fb = s.fb) (fun e he t ht => ?_) rfl)
    cases e with
    | setInv v => exact ht
    | emit kind bytes => exact ht
    | _ => exact absurd ⟨_, he, rfl⟩ h

/-- A run of effects changes `INV` only to the value of one of its writes. -/
theorem State.runEffects_inv (s : State) (es : List Effect) :
    (s.runEffects es).1.inv = s.inv ∨ .setInv (s.runEffects es).1.inv ∈ es := by
  refine State.runEffects_keeps (P := fun t => t.inv = s.inv ∨ .setInv t.inv ∈ es) (fun e he t ht => ?_) (.inl rfl)
  cases e with
  | setInv v => exact .inr he
  | _ => exact ht

/-- What a command run to its end does, and what it does write by write: the effects a step can run of it. -/
def IsEffectOf (i : Instr) (s : State) (e : Effect) : Prop := e ∈ effectsOf i s ∨ e ∈ singleEffects i s

theorem IsEffectOf.good {i : Instr} {s : State} {e : Effect} (he : IsEffectOf i s e) (hl : legal s.cfg = true)
    (hm : s.fb.wf = true) (hb : s.fb.within (nbytes s.cfg) = true) : GoodEffect s.cfg e :=
  he.elim (effectsOf_good hl hm hb i e) (singleEffects_good hl hm hb i e)

/-- Only INVERT writes `INV`, and it writes its operand (R120). -/
theorem IsEffectOf.invert_of_setInv {i : Instr} {s : State} {v : Bool} (he : IsEffectOf i s (.setInv v)) :
    i = .invert v := by
  cases i with
  | invert w =>
    simp only [IsEffectOf, effectsOf, singleEffects, invertEffects, or_self, List.mem_cons, List.not_mem_nil, or_false,
      Effect.setInv.injEq, reduceCtorEq] at he
    rw [he]
  | clear => simp [IsEffectOf, effectsOf, singleEffects, clearEffects, clearWrites] at he
  | setpx x y w => simp [IsEffectOf, effectsOf, singleEffects, setpxEffects] at he
  | getpx x y => simp [IsEffectOf, effectsOf, singleEffects, getpxEffects] at he
  | setrect x y w h b => simp [IsEffectOf, effectsOf, singleEffects, setrectEffects, setrectWrites, loopEffects] at he
  | chkrect x y w h c => simp [IsEffectOf, effectsOf, singleEffects, chkrectEffects, chkrectWrites, loopEffects] at he
  | flush => simp [IsEffectOf, effectsOf, singleEffects, flushEffects] at he
  | fillrect x y w h => simp [IsEffectOf, effectsOf, singleEffects, setrectEffects, setrectWrites, loopEffects] at he
  | clrrect x y w h => simp [IsEffectOf, effectsOf, singleEffects, setrectEffects, setrectWrites, loopEffects] at he

/-- GETPX, INVERT and FLUSH do not write the page RAM (R85, R120, R128). -/
theorem IsEffectOf.draws_of_writesPage {i : Instr} {s : State} {e : Effect} (he : IsEffectOf i s e)
    (hw : e.writesPage = true) : (∀ x y, i ≠ .getpx x y) ∧ (∀ v, i ≠ .invert v) ∧ i ≠ .flush := by
  refine ⟨?_, ?_, ?_⟩
  · rintro x y rfl
    simp [IsEffectOf, effectsOf, singleEffects, getpxEffects] at he
  · rintro v rfl
    simp only [IsEffectOf, effectsOf, singleEffects, invertEffects, or_self, List.mem_cons, List.not_mem_nil,
      or_false] at he
    rcases he with rfl | rfl <;> cases hw
  · rintro rfl
    simp only [IsEffectOf, effectsOf, singleEffects, flushEffects, or_self, List.mem_cons, List.not_mem_nil,
      or_false] at he
    rcases he with rfl | rfl | rfl <;> cases hw

/-- No word decodes to a pseudo-instruction (R64, R69). -/
theorem expand_of_decode {cmd : Word} {i : Instr} (h : decode cmd = .ok i) : i.expand = i := by
  unfold decode at h
  split_ifs at h <;> cases h <;> rfl

/-! ### Every step, once -/

/-- In the step from `s` to `t` the port accepts `cmd` (R170), and `es` is what runs of it: nothing, or effects of the
command it decodes to, in `READY`. It is answered with one of R140's bytes, or a reset falls in it (R164). -/
structure AcceptedStep (s : State) (cmd : Word) (es : List Effect) (t : State) : Prop where
  offered : s.offered = some cmd
  effects : ∀ e ∈ es, s.phase = .ready ∧ ∃ i, decode cmd = .ok i ∧ IsEffectOf i s e
  result  : t = { (s.tick.accept.runEffects es).1 with resp := t.resp, resetIn := t.resetIn }
  answer  : (t.resetIn = false ∧ ∃ r ∈ responseBytes, t.resp = some r) ∨
    (t.resetIn = true ∧ t.resp = none ∧ ∃ done, s.agenda.head? = some (.resetDuring done))

/-- Everything a step to a next state can be, each with what it leaves unchanged. -/
inductive StepKind (s t : State) : Prop where
  /-- The block rests: nothing, or an event at the ports or the reset input. -/
  | held (frame : t = { s with
        agenda := s.agenda.tail, port := t.port, respReady := t.respReady, resetIn := t.resetIn })
      (reset : s.resetIn = true → t.resetIn = true)
  /-- An asserted reset is released (R160). -/
  | released (reset : s.resetIn = true) (event : s.agenda.head? = some .releaseReset) (result : t = s.tick.beginReset)
  /-- The reset sequence does its next action (R160). -/
  | sequenced (p : SeqPoint) (phase : s.phase = .reset p) (result : t = sequenceStep p s.tick)
  /-- The host takes the pending response (R31). -/
  | taken (r : Byte) (pending : s.resp = some r) (ready : s.respReady = true)
      (phase : s.phase = .ready ∨ s.phase = .failed) (result : t = s.tick.takeResponse r)
  /-- The port accepts a command (R170). -/
  | accepted (cmd : Word) (es : List Effect) (step : AcceptedStep s cmd es t)

/-- A command's effects depend on the page RAM and the parameters, which acceptance leaves alone. -/
theorem effectsOf_tick_accept (i : Instr) (s : State) : effectsOf i s.tick.accept = effectsOf i s := by
  cases i <;> rfl

theorem singleEffects_tick (i : Instr) (s : State) : singleEffects i s.tick = singleEffects i s := by
  cases i <;> rfl

/-- In `READY` a command is its effects and one of R140's bytes. -/
theorem State.perform_ready {s : State} (h : s.phase = .ready) (es : List Effect) {pix : Bool} :
    ∃ r ∈ responseBytes, s.perform es pix = { (s.runEffects es).1 with resp := some r } := by
  rcases State.perform_cases s es pix with ⟨⟨p, hp⟩, -⟩ | ⟨hf, -⟩ | ⟨-, -, hok⟩ | ⟨-, -, herr⟩
  · rw [h] at hp; cases hp
  · rw [h] at hf; cases hf
  · exact ⟨_, responseByte_mem .ok pix fun _ => rfl, hok⟩
  · exact ⟨_, responseByte_mem .sinkError false nofun, herr⟩

/-- An accepted command run to its response. -/
theorem acceptedStep_of_runCommand {s t : State} {cmd : Word} (ho : s.offered = some cmd)
    (h : runCommand cmd s.tick.accept = .next t) : ∃ es, AcceptedStep s cmd es t := by
  obtain ⟨hr, -, -, -, hphase, -⟩ := (offered_iff s cmd).1 ho
  have refused : ∀ st, AcceptedStep s cmd [] (s.tick.accept.raiseError st) := fun st =>
    ⟨ho, nofun, rfl, .inl ⟨hr, _, responseByte_mem st false nofun, rfl⟩⟩
  rcases runCommand_inv h with ⟨-, rfl⟩ | ⟨-, -, rfl⟩ | ⟨hnf, i, pix, hd, rfl⟩
  · exact ⟨[], refused _⟩
  · exact ⟨[], refused _⟩
  · have ready : s.phase = .ready := hphase.resolve_right hnf
    obtain ⟨r, hmem, hperf⟩ := State.perform_ready (s := s.tick.accept) ready (effectsOf i s.tick.accept) (pix := pix)
    have hreset : (s.tick.accept.runEffects (effectsOf i s.tick.accept)).1.resetIn = false := by
      obtain ⟨-, -, -, -, -, -, -, hri, -⟩ := State.runEffects_fields s.tick.accept (effectsOf i s.tick.accept)
      exact hri.trans hr
    rw [hperf]
    refine ⟨_, ho, fun e he => ⟨ready, i, hd, .inl ?_⟩, rfl, .inl ⟨hreset, r, hmem, rfl⟩⟩
    rwa [effectsOf_tick_accept] at he

/-- What runs of a word, one effect at a time: nothing, or effects of the command it decodes to, in `READY`. -/
theorem isEffectOf_of_mem_wordEffects {s : State} {cmd : Word} {e : Effect}
    (hphase : s.phase = .ready ∨ s.phase = .failed) (he : e ∈ wordEffects cmd s.tick) :
    s.phase = .ready ∧ ∃ i, decode cmd = .ok i ∧ IsEffectOf i s e := by
  unfold wordEffects verdictOf at he
  rcases hphase with hp | hp
  · cases hd : decode cmd with
    | error why => simp [hp, hd] at he
    | ok i =>
      simp only [State.tick_phase, hp, hd, singleEffects_tick] at he
      exact ⟨hp, i, rfl, .inr he⟩
  · simp [hp] at he

/-- A command abandoned by a reset. -/
theorem acceptedStep_abandonCommand {s : State} {cmd : Word} {done : Nat} (ho : s.offered = some cmd)
    (ha : s.agenda.head? = some (.resetDuring done)) :
    AcceptedStep s cmd ((wordEffects cmd s.tick).take done) (abandonCommand done cmd s.tick) := by
  obtain ⟨-, -, -, hresp, hphase, -⟩ := (offered_iff s cmd).1 ho
  obtain ⟨-, -, -, -, hrun, -⟩ := State.runEffects_fields s.tick.accept ((wordEffects cmd s.tick).take done)
  exact ⟨ho, fun e he => isEffectOf_of_mem_wordEffects hphase (List.mem_of_mem_take he), rfl,
    .inr ⟨rfl, hrun.trans hresp, done, ha⟩⟩

/-- Every step to a next state is of one of the five kinds. -/
theorem stepKind_of_step {s t : State} (h : step s = .next t) : StepKind s t := by
  rcases step_cases h with ⟨e, ha, rfl⟩ | ⟨-, rfl⟩ | ⟨p, ha, rfl⟩ | ⟨r, ha, rfl⟩ | ⟨done, cmd, ha, rfl⟩ |
    ⟨cmd, ha, hrun⟩
  · have hevent := nextAction_outside ha
    rcases applyEvent_cases e s.tick with ⟨frame, reset⟩ | ⟨rfl, reset, result⟩
    · exact .held frame reset
    · exact .released reset hevent result
  · exact .held rfl id
  · exact .sequenced p (nextAction_sequence ha).1 rfl
  · obtain ⟨hq, -, hy, hp⟩ := nextAction_take ha
    exact .taken r hq hy hp rfl
  · obtain ⟨ho, hevent⟩ := nextAction_abandon ha
    exact .accepted cmd _ (acceptedStep_abandonCommand ho hevent)
  · obtain ⟨es, haccepted⟩ := acceptedStep_of_runCommand (nextAction_command ha) hrun
    exact .accepted cmd es haccepted

/-! ### The frame of an accepted command -/

section AcceptedStep
variable {s t : State} {cmd : Word} {es : List Effect}

/-- The fields no command writes. -/
theorem AcceptedStep.unchanged (h : AcceptedStep s cmd es t) :
    t.cfg = s.cfg ∧ t.phase = s.phase ∧ t.rstOut = s.rstOut ∧ t.started = s.started ∧ t.taken = s.taken := by
  obtain ⟨hcfg, hphase, hrst, -, -, -, hstarted, -, -, -, -, htaken⟩ := State.runEffects_fields s.tick.accept es
  rw [h.result]
  exact ⟨hcfg, hphase, hrst, hstarted, htaken⟩

/-- The port was open and held `cmd` (R170), and acceptance takes it, sets `BUSY` and advances the position (R27,
R30). -/
theorem AcceptedStep.handshake (h : AcceptedStep s cmd es t) :
    s.resetIn = false ∧ s.busy = false ∧ s.resp = none ∧ (s.phase = .ready ∨ s.phase = .failed) ∧
      s.port = cmd :: t.port ∧ t.pos = s.pos + 1 ∧ t.busy = true := by
  obtain ⟨hr, -, hb, hq, hp, hport⟩ := (offered_iff s cmd).1 h.offered
  obtain ⟨-, -, -, hbusy, -, hpos, -, -, hrest, -⟩ := State.runEffects_fields s.tick.accept es
  rw [h.result]
  refine ⟨hr, hb, hq, hp, ?_, hpos, hbusy⟩
  have htail : (s.tick.accept.runEffects es).1.port = s.port.tail := hrest
  obtain ⟨rest, hs⟩ := List.head?_eq_some_iff.1 hport
  rw [hs] at htail ⊢
  exact congrArg (cmd :: ·) htail.symm

theorem AcceptedStep.fb_eq (h : AcceptedStep s cmd es t) : t.fb = (s.tick.accept.runEffects es).1.fb := by
  rw [h.result]

theorem AcceptedStep.inv_eq (h : AcceptedStep s cmd es t) : t.inv = (s.tick.accept.runEffects es).1.inv := by
  rw [h.result]

/-- Whatever a command changes of `FB` or `INV`, it changes in `READY`. -/
theorem AcceptedStep.fb_inv_of_not_ready (h : AcceptedStep s cmd es t) (hp : s.phase ≠ .ready) :
    t.fb = s.fb ∧ t.inv = s.inv := by
  obtain rfl : es = [] := List.eq_nil_iff_forall_not_mem.2 fun e he => hp (h.effects e he).1
  exact ⟨h.fb_eq, h.inv_eq⟩

end AcceptedStep

/-! ### The invariant (R30, R31, R33, R40, R140, R160) -/

section Invariant
variable {s t : State}

theorem Inv.of_held (hi : Inv s)
    (frame : t = { s with agenda := s.agenda.tail, port := t.port, respReady := t.respReady, resetIn := t.resetIn })
    (reset : s.resetIn = true → t.resetIn = true) : Inv t := by
  rw [frame]
  exact { hi with
    busyPending := fun ht => hi.busyPending (Bool.eq_false_iff.2 fun hs => Bool.eq_false_iff.1 ht (reset hs)) }

/-- A release of reset establishes the reset values of the sequence it starts (R33). -/
theorem Inv.tick_beginReset (hi : Inv s) : Inv s.tick.beginReset where
  buildable := hi.buildable
  running := rfl
  canonical := rfl
  bounded := rfl
  busyPending := fun _ => rfl
  pendingByte := nofun
  takenBytes := hi.takenBytes
  resetValues := fun _ _ => ⟨rfl, rfl, rfl, rfl⟩
  failedValues := nofun
  pinLevel := nofun
  entryInTable := nofun

theorem Inv.tick_sequenceStep (hi : Inv s) {p : SeqPoint} (hp : s.phase = .reset p) : Inv (sequenceStep p s.tick) := by
  obtain ⟨hbusy, hresp, hfb, hinv⟩ := hi.resetValues p hp
  have hpin : ∀ l, writtenLevel s.tick.cfg (.reset p) = some l → s.tick.rstOut = l := fun l hl =>
    hi.pinLevel l (hp ▸ hl)
  rw [sequenceStep_frame]
  exact { hi with
    resetValues := fun _ _ => ⟨hbusy, hresp, hfb, hinv⟩
    failedValues := fun _ => ⟨hfb, hinv⟩
    pinLevel := fun _ => sequenceStep_pinLevel hpin
    entryInTable := fun _ => sequenceStep_entry_le (s := s.tick) }

theorem Inv.tick_takeResponse (hi : Inv s) {r : Byte} (hr : s.resp = some r)
    (hp : s.phase = .ready ∨ s.phase = .failed) : Inv (s.tick.takeResponse r) := by
  refine { hi with
    busyPending := fun _ => rfl
    pendingByte := nofun
    takenBytes := fun b hb => ?_
    resetValues := fun p h => ?_ }
  · rcases List.mem_append.1 hb with hb | hb
    · exact hi.takenBytes b hb
    · rw [List.mem_singleton.1 hb]
      exact hi.pendingByte r hr
  · have hreset : s.phase = .reset p := h
    rcases hp with hp | hp <;> rw [hp] at hreset <;> cases hreset

/-- An accepted command keeps the invariant: its effects are good ones, it is answered with one of R140's bytes unless
a reset falls in it, and it has no effect in `FAILED`. -/
theorem Inv.of_acceptedStep (hi : Inv s) {cmd : Word} {es : List Effect} (h : AcceptedStep s cmd es t) : Inv t := by
  obtain ⟨hcfg, hphase, hrst, hstarted, htaken⟩ := h.unchanged
  obtain ⟨-, -, -, hopen, -, -, hbusy⟩ := h.handshake
  have good : ∀ e ∈ es, GoodEffect s.cfg e := fun e he => by
    obtain ⟨-, i, -, hei⟩ := h.effects e he
    exact hei.good hi.buildable hi.canonical hi.bounded
  obtain ⟨hwf, hwithin⟩ := State.runEffects_good (s := s.tick.accept) hi.buildable good hi.canonical hi.bounded
  refine
    { buildable := by rw [hcfg]; exact hi.buildable
      running := by rw [hstarted]; exact hi.running
      canonical := by rw [h.fb_eq]; exact hwf
      bounded := by rw [h.fb_eq, hcfg]; exact hwithin
      busyPending := fun hr => ?_
      pendingByte := fun r hr => ?_
      takenBytes := by rw [htaken]; exact hi.takenBytes
      resetValues := fun p hp => ?_
      failedValues := fun hp => ?_
      pinLevel := by rw [hcfg, hphase, hrst]; exact hi.pinLevel
      entryInTable := by rw [hcfg, hphase]; exact hi.entryInTable }
  · rcases h.answer with ⟨-, r, -, hresp⟩ | ⟨hreset, -⟩
    · rw [hbusy, hresp]; rfl
    · rw [hr] at hreset; cases hreset
  · rcases h.answer with ⟨-, b, hmem, hresp⟩ | ⟨-, hresp, -⟩
    · rw [hresp] at hr; cases hr; exact hmem
    · rw [hresp] at hr; cases hr
  · rw [hphase] at hp
    rcases hopen with ho | ho <;> rw [ho] at hp <;> cases hp
  · rw [hphase] at hp
    obtain ⟨hfb, hinv⟩ := h.fb_inv_of_not_ready (by rw [hp]; nofun)
    rw [hfb, hinv]
    exact hi.failedValues hp

end Invariant

/-- Settles O3, by the kind of the step. -/
theorem stepKeepsInvariant : Obligations.StepKeepsInvariant := by
  intro s t hi h
  cases stepKind_of_step h with
  | held frame reset => exact hi.of_held frame reset
  | released reset event result => exact result ▸ hi.tick_beginReset
  | sequenced p phase result => exact result ▸ hi.tick_sequenceStep phase
  | taken r pending ready phase result => exact result ▸ hi.tick_takeResponse pending phase
  | accepted cmd es step => exact hi.of_acceptedStep step

/-! ### Who writes what -/

/-- Settles O6: the configuration stands in the frame of every kind of step. -/
theorem configurationNeverChanges : Obligations.ConfigurationNeverChanges := by
  intro s t h
  cases stepKind_of_step h with
  | held frame reset => rw [frame]
  | released reset event result => rw [result]; rfl
  | sequenced p phase result => rw [result, sequenceStep_frame]; rfl
  | taken r pending ready phase result => rw [result]; rfl
  | accepted cmd es step =>
    obtain ⟨hcfg, -⟩ := step.unchanged
    exact hcfg

/-- Settles O28: besides the three handshakes no kind of step writes `BUSY` or `RESP`. -/
theorem busyAndRespWrittenOnlyByHandshakes : Obligations.BusyAndRespWrittenOnlyByHandshakes := by
  intro s t h changed
  cases stepKind_of_step h with
  | held frame reset => rw [frame] at changed; simp at changed
  | released reset event result => exact .inr (.inr ⟨reset, event, by rw [result]; rfl, by rw [result]; rfl⟩)
  | sequenced p phase result => rw [result, sequenceStep_frame] at changed; simp at changed
  | taken r pending ready phase result => subst result; exact .inr (.inl ⟨r, pending, ready, rfl, rfl, rfl⟩)
  | accepted cmd es step =>
    obtain ⟨hr, hb, hq, hp, hport, hpos, hbusy⟩ := step.handshake
    refine .inl ⟨hb, hq, hr, hp, ⟨cmd, hport⟩, hpos, hbusy, ?_⟩
    rcases step.answer with ⟨-, r, -, hresp⟩ | ⟨hreset, -, hevent⟩
    · exact .inl (by rw [hresp]; rfl)
    · exact .inr ⟨hreset, hevent⟩

/-- Settles O32: an accepted command changes the page RAM only by an effect that writes it, and of the commands a word
decodes to only the four drawing ones have such an effect. -/
theorem pageRamWrittenOnlyByDrawing : Obligations.PageRamWrittenOnlyByDrawing := by
  intro s t h changed
  cases stepKind_of_step h with
  | held frame reset => rw [frame] at changed; exact absurd rfl changed
  | released reset event result => exact .inl ⟨reset, event, by rw [result]; rfl⟩
  | sequenced p phase result => rw [result, sequenceStep_frame] at changed; exact absurd rfl changed
  | taken r pending ready phase result => rw [result] at changed; exact absurd rfl changed
  | accepted cmd es step =>
    obtain ⟨hr, hb, hq, -, hport, hpos, -⟩ := step.handshake
    rw [step.fb_eq] at changed
    obtain ⟨e, he, hw⟩ := (State.runEffects_fb s.tick.accept es).resolve_left changed
    obtain ⟨ready, i, hd, hei⟩ := step.effects e he
    obtain ⟨hget, hinvert, hflush⟩ := hei.draws_of_writesPage hw
    refine .inr ⟨cmd, i, ready, hb, hq, hr, hport, hpos, hd, ?_⟩
    have hcore := expand_of_decode hd
    cases i with
    | clear => exact .inr (.inr (.inr rfl))
    | setpx x y v => exact .inl ⟨x, y, v, rfl⟩
    | setrect x y w h v => exact .inr (.inl ⟨x, y, w, h, v, rfl⟩)
    | chkrect x y w h c => exact .inr (.inr (.inl ⟨x, y, w, h, c, rfl⟩))
    | getpx x y => exact absurd rfl (hget x y)
    | invert v => exact absurd rfl (hinvert v)
    | flush => exact absurd rfl hflush
    | fillrect x y w h => cases hcore
    | clrrect x y w h => cases hcore

/-- Settles O33: an accepted command changes `INV` only to the value of a write of it, and only INVERT has one. -/
theorem invWrittenOnlyByInvert : Obligations.InvWrittenOnlyByInvert := by
  intro s t h changed
  cases stepKind_of_step h with
  | held frame reset => rw [frame] at changed; exact absurd rfl changed
  | released reset event result => exact .inl ⟨reset, event, by rw [result]; rfl⟩
  | sequenced p phase result => rw [result, sequenceStep_frame] at changed; exact absurd rfl changed
  | taken r pending ready phase result => rw [result] at changed; exact absurd rfl changed
  | accepted cmd es step =>
    obtain ⟨hr, hb, hq, -, hport, hpos, -⟩ := step.handshake
    have written : .setInv t.inv ∈ es := by
      rw [step.inv_eq] at changed ⊢
      exact (State.runEffects_inv s.tick.accept es).resolve_left changed
    obtain ⟨ready, i, hd, hei⟩ := step.effects _ written
    exact .inr ⟨cmd, t.inv, ready, hb, hq, hr, hport, hpos, hei.invert_of_setInv ▸ hd, rfl⟩

/-- Settles O34: only the release of reset and the sequence's actions write `PHASE`, and only the two pin writes the
pin. -/
theorem phaseAndPinWrittenOnlyByReset : Obligations.PhaseAndPinWrittenOnlyByReset := by
  intro s t h
  cases stepKind_of_step h with
  | held frame reset => rw [frame]; exact ⟨absurd rfl, absurd rfl⟩
  | released reset event result =>
    subst result
    exact ⟨fun _ => .inr ⟨reset, event, rfl⟩, absurd rfl⟩
  | sequenced p phase result =>
    subst result
    refine ⟨fun _ => .inl ⟨p, phase⟩, fun changed => ?_⟩
    rw [phase]
    exact (pinWrite_of_sequenceStep_rstOut changed).imp (congrArg Phase.reset) (congrArg Phase.reset)
  | taken r pending ready phase result => subst result; exact ⟨absurd rfl, absurd rfl⟩
  | accepted cmd es step =>
    obtain ⟨-, hphase, hrst, -⟩ := step.unchanged
    exact ⟨absurd hphase, absurd hrst⟩

/-! ### The block's own step in a still world -/

/-- Without an event of the outside world the step is the block's own. -/
theorem nextAction_of_still {s : State} (hl : legal s.cfg = true)
    (ha : s.agenda.head? = none ∨ s.agenda.head? = some .run) : nextAction s = ownAction s := by
  rcases ha with ha | ha <;> simp [nextAction, hl, ha]

/-- Settles O7: the block's own action is none at all. -/
theorem blockStuckBeforeFirstReset : Obligations.BlockStuckBeforeFirstReset := by
  intro s hl hs hr ha
  have stuck : ownAction s = .stuck := by simp [ownAction, hr, hs]
  simp [step, nextAction_of_still hl ha, stuck]

/-- A pending response comes first: it is taken, or the block waits for the host. -/
theorem ownAction_of_pending {s : State} {r : Byte} (hr : s.resetIn = false) (hs : s.started = true)
    (hp : ∀ p, s.phase ≠ .reset p) (hq : s.resp = some r) :
    ownAction s = if s.respReady then .take r else .idle := by
  unfold ownAction
  cases hphase : s.phase with
  | reset p => exact absurd hphase (hp p)
  | ready => simp [hr, hs, hq]
  | failed => simp [hr, hs, hq]

/-- Settles O27: through every kind of step, and then for the step of an undisturbed block. -/
theorem responseHeldUntilTaken : Obligations.ResponseHeldUntilTaken := by
  constructor
  · intro s t r h hq
    cases stepKind_of_step h with
    | held frame reset => rw [frame]; exact .inl ⟨hq, rfl, rfl⟩
    | released reset event result => subst result; exact .inr (.inr ⟨reset, event, rfl, rfl, rfl⟩)
    | sequenced p phase result => rw [result, sequenceStep_frame]; exact .inl ⟨hq, rfl, rfl⟩
    | taken r' pending ready phase result =>
      subst result
      obtain rfl : r = r' := Option.some.inj (hq.symm.trans pending)
      exact .inr (.inl ⟨ready, rfl, rfl, rfl⟩)
    | accepted cmd es step =>
      obtain ⟨-, -, hempty, -⟩ := step.handshake
      rw [hq] at hempty; cases hempty
  · rintro s r ⟨hl, hs, hr, ha⟩ hp hq
    have own := (nextAction_of_still hl ha).trans (ownAction_of_pending hr hs hp hq)
    constructor
    · intro hy
      rw [if_pos hy] at own
      rw [step, own]
      rfl
    · intro hy
      rw [if_neg (by simp [hy])] at own
      rw [step, own]
      rfl

/-- At an open port the block's own action is the acceptance of the command held there (R170). -/
theorem ownAction_of_offered {s : State} {cmd : Word} (ho : s.offered = some cmd) : ownAction s = .command cmd := by
  obtain ⟨hr, hs, -, hq, hp, -⟩ := (offered_iff s cmd).1 ho
  rcases hp with hp | hp <;> simp [ownAction, hr, hs, hq, hp, ho]

/-- In an undisturbed block with an open port the step accepts the command held there and answers it. -/
theorem step_of_offers {s : State} {cmd : Word} (hu : Undisturbed s) (ho : Offers s cmd)
    (hp : s.phase = .ready ∨ s.phase = .failed) : step s = runCommand cmd s.tick.accept := by
  obtain ⟨hl, hs, hr, ha⟩ := hu
  obtain ⟨hb, hq, hport⟩ := ho
  have offered : s.offered = some cmd := (offered_iff s cmd).2 ⟨hr, hs, hb, hq, hp, hport⟩
  simp [step, nextAction_of_still hl ha, ownAction_of_offered offered]

/-- An accepted word that decodes is executed in `READY`. -/
theorem runCommand_of_decode {s : State} {cmd : Word} {i : Instr} (hp : s.phase = .ready) (hd : decode cmd = .ok i) :
    runCommand cmd s = exec i s := by
  simp [runCommand, verdictOf, hp, hd]

/-- Settles O21: the step accepts the word, and the word decodes. -/
theorem stepRunsDecodedCommand : Obligations.StepRunsDecodedCommand := by
  intro s cmd i hu ho hp hd
  exact (step_of_offers hu ho (.inl hp)).trans (runCommand_of_decode (s := s.tick.accept) hp hd)

/-- Settles O22: `withFetchWord` leaves an undisturbed block in `READY` with the word at the open port. -/
theorem fetchedWordRunsNext : Obligations.FetchedWordRunsNext := by
  intro s w i hl hp hw hd
  have ready : openPhase s.phase = .ready := by
    cases hphase : s.phase with
    | failed => exact absurd hphase hp
    | _ => rfl
  have offers : Offers (s.withFetchWord 64 w) (BitVec.ofNat 64 w) := ⟨rfl, rfl, by
    rw [← Nat.mod_eq_of_lt hw]
    simp [State.withFetchWord]⟩
  rw [stepRunsDecodedCommand (s.withFetchWord 64 w) _ i ⟨hl, rfl, rfl, .inr rfl⟩ offers ready hd]
  simp only [State.withFetchWord, ready, List.tail_cons]

/-! ### The reset state (R33) -/

/-- Settles O1: the reset state is written out with R33's values. -/
theorem resetStateHoldsSpecValues : Obligations.ResetStateHoldsSpecValues :=
  ⟨fun _ => ⟨Memory.read_nil, rfl, rfl, rfl, rfl, rfl⟩, rfl⟩

theorem inv_resetOf {c : Config} (hl : legal c = true) : Inv (State.resetOf c) where
  buildable := hl
  running := rfl
  canonical := rfl
  bounded := rfl
  busyPending := fun _ => rfl
  pendingByte := nofun
  takenBytes := nofun
  resetValues := nofun
  failedValues := nofun
  pinLevel := fun _ h => Option.some.inj h
  entryInTable := nofun

/-- Every entry of the example display's table begins with a command byte, whatever the open bytes are (R8, R163). -/
theorem legal_exampleDisplay : legal Config.exampleDisplay = true := by decide

/-- Settles O2: the reset state is idle in `READY`, where the invariant asks only for the pin at its inactive level. -/
theorem resetMeetsInvariant : Obligations.ResetMeetsInvariant :=
  ⟨fun _ => inv_resetOf, inv_resetOf legal_exampleDisplay⟩

/-! ### Pages (R20-R22, R49) -/

/-- A byte of column `x` and page `p` lies in the page RAM (R20). -/
theorem pageByte_lt {c : Config} {x p : Nat} (hx : x < c.width) (hp : p < npages c) : x + p * c.width < nbytes c := by
  have := Nat.mul_le_mul_right c.width (Nat.succ_le_of_lt hp)
  rw [Nat.succ_mul] at this
  unfold nbytes
  omega

/-- Pixel `(x, 8p + k)` is bit `k` of byte `x + p * WIDTH` (R22). -/
theorem pixel_of_page (c : Config) (m : Memory) (x p : Nat) {k : Nat} (hk : k < 8) :
    pixel c m x (8 * p + k) = (m.read (x + p * c.width)).getLsbD k := by
  have hpage : (8 * p + k) / 8 = p := by omega
  have hbit : (8 * p + k) % 8 = k := by omega
  rw [pixel, byteIndex, bitIndex_eq, hpage, hbit]

/-- Settles O39: both directions of R22 are the one fact about a page's pixel, since byte `i` is column `i % WIDTH` of
page `i / WIDTH`. -/
theorem pagesPackEightRows : Obligations.PagesPackEightRows := by
  intro c m hl
  refine ⟨rfl, fun x p k hx hp hk => ⟨pageByte_lt hx hp, pixel_of_page c m x p hk⟩, fun i hi => ?_⟩
  refine ⟨Nat.mod_lt i (legal_width_pos hl), pageOf_lt hi, fun k hk => ?_⟩
  rw [pixel_of_page c m _ _ hk, Nat.mod_add_div']

end Sys2Proof.Machine
end

section
/-! SUPPORT. The family `20_memory`: the region commands write by write leave what they leave at once (R56, R164), the
sink and the host only receive more (R45, R50), SETPX is one bit (R44), and an accepted FLUSH is its stream (R47). -/

namespace Sys2Proof.Machine

/-! ### The region commands write by write (R56, R100, R101, R105, R110) -/

/-- `f` gives each pixel of the region `S` on the display the value `V` says, and changes nothing else of a canonical
page RAM. -/
structure Paints (c : Config) (V : Nat → Nat → Bool) (S : Nat → Nat → Prop) (f : Memory → Memory) : Prop where
  wf      : ∀ m, m.wf = true → (f m).wf = true
  beyond  : ∀ m, m.wf = true → ∀ a, nbytes c ≤ a → (f m).read a = m.read a
  inside  : ∀ m, m.wf = true → ∀ px py, px < c.width → py < c.height → S px py → pixel c (f m) px py = V px py
  outside : ∀ m, m.wf = true → ∀ px py, px < c.width → py < c.height → ¬ S px py →
    pixel c (f m) px py = pixel c m px py

section Paints
variable {c : Config} {V : Nat → Nat → Bool} {S T : Nat → Nat → Prop} {f g : Memory → Memory}

/-- The region matters on the display only. -/
theorem Paints.congr (hf : Paints c V S f)
    (h : ∀ px py, px < c.width → py < c.height → (S px py ↔ T px py)) : Paints c V T f where
  wf := hf.wf
  beyond := hf.beyond
  inside := fun m hm px py hx hy ht => hf.inside m hm px py hx hy ((h px py hx hy).2 ht)
  outside := fun m hm px py hx hy ht => hf.outside m hm px py hx hy (ht ∘ (h px py hx hy).1)

/-- What paints the same values in the same region leaves the same page RAM. -/
theorem Paints.eq (hl : legal c = true) (hf : Paints c V S f) (hg : Paints c V S g) {m : Memory} (hm : m.wf = true) :
    f m = g m := by
  refine ext_pixels hl (hf.wf m hm) (hg.wf m hm) (fun px py hx hy => ?_) fun a ha =>
    (hf.beyond m hm a ha).trans (hg.beyond m hm a ha).symm
  by_cases hs : S px py
  · rw [hf.inside m hm px py hx hy hs, hg.inside m hm px py hx hy hs]
  · rw [hf.outside m hm px py hx hy hs, hg.outside m hm px py hx hy hs]

theorem Paints.id (c : Config) (V : Nat → Nat → Bool) : Paints c V (fun _ _ => False) fun m => m where
  wf := fun _ hm => hm
  beyond := fun _ _ _ _ => rfl
  inside := fun _ _ _ _ _ _ => False.elim
  outside := fun _ _ _ _ _ _ _ => rfl

/-- One painting after another: both regions. -/
theorem Paints.comp (hf : Paints c V S f) (hg : Paints c V T g) :
    Paints c V (fun px py => S px py ∨ T px py) fun m => g (f m) where
  wf := fun m hm => hg.wf _ (hf.wf m hm)
  beyond := fun m hm a ha => (hg.beyond _ (hf.wf m hm) a ha).trans (hf.beyond m hm a ha)
  inside := fun m hm px py hx hy h => by
    by_cases ht : T px py
    · exact hg.inside _ (hf.wf m hm) px py hx hy ht
    · exact (hg.outside _ (hf.wf m hm) px py hx hy ht).trans (hf.inside m hm px py hx hy (h.resolve_right ht))
  outside := fun m hm px py hx hy h =>
    (hg.outside _ (hf.wf m hm) px py hx hy fun ht => h (.inr ht)).trans
      (hf.outside m hm px py hx hy fun hs => h (.inl hs))

/-- Paintings in the order of a list: the regions of all of them. -/
theorem Paints.foldl {S : Nat → Nat → Nat → Prop} {f : Nat → Memory → Memory} {l : List Nat}
    (h : ∀ k ∈ l, Paints c V (S k) (f k)) :
    Paints c V (fun px py => ∃ k ∈ l, S k px py) (l.foldl fun acc k => f k acc) := by
  induction l with
  | nil => exact (Paints.id c V).congr fun _ _ _ _ => by simp
  | cons k l ih =>
    have first := h k (List.mem_cons_self ..)
    exact (first.comp (ih fun j hj => h j (List.mem_cons_of_mem _ hj))).congr fun _ _ _ _ => by simp

/-- A loop of paintings: the regions of all its iterations. -/
theorem Paints.loop {S : Int → Nat → Nat → Prop} {f : Int → Memory → Memory} {lo n : Int}
    (h : ∀ k, lo ≤ k → k < lo + n → Paints c V (S k) (f k)) :
    Paints c V (fun px py => ∃ k, lo ≤ k ∧ k < lo + n ∧ S k px py) (loop lo n f) := by
  have iteration : ∀ k ∈ List.range n.toNat, Paints c V (S (lo + k)) (f (lo + k)) := fun k hk => by
    have := List.mem_range.1 hk
    exact h _ (by omega) (by omega)
  refine (Paints.foldl iteration).congr fun px py _ _ => ⟨?_, ?_⟩
  · rintro ⟨k, hk, hs⟩
    have := List.mem_range.1 hk
    exact ⟨lo + k, by omega, by omega, hs⟩
  · rintro ⟨k, h0, h1, hs⟩
    refine ⟨(k - lo).toNat, List.mem_range.2 (by omega), ?_⟩
    rwa [show lo + ((k - lo).toNat : Int) = k by omega]

/-- A pixel write paints its pixel (R80). -/
theorem Paints.writePixel (hl : legal c = true) {px py : Nat} (hx : px < c.width) (hy : py < c.height) {v : Bool}
    (hv : V px py = v) : Paints c V (fun qx qy => qx = px ∧ qy = py) (writePixel c px py v) where
  wf := fun m hm => wf_writePixel hm ..
  beyond := fun m hm a ha => by
    have := byteIndex_lt hl hx hy
    rw [read_writePixel c hm, if_neg (by omega)]
  inside := fun m hm qx qy gx gy h => by
    rw [pixel_writePixel hm hx gx, if_pos h, h.1, h.2, hv]
  outside := fun m hm qx qy gx gy h => by
    rw [pixel_writePixel hm hx gx, if_neg h]

/-- Nested loops of pixel writes paint the pixels whose column and row the loops run through. -/
theorem Paints.nestedLoop (hl : legal c = true) {X Y : Int → Nat} {v : Int → Int → Bool} {x y w h : Int}
    (hX : ∀ i, x ≤ i → i < x + w → X i < c.width) (hY : ∀ j, y ≤ j → j < y + h → Y j < c.height)
    (hV : ∀ i j, x ≤ i → y ≤ j → V (X i) (Y j) = v i j) :
    Paints c V (fun px py => (∃ i, x ≤ i ∧ i < x + w ∧ px = X i) ∧ ∃ j, y ≤ j ∧ j < y + h ∧ py = Y j)
      (Machine.loop y h fun j => Machine.loop x w fun i => Machine.writePixel c (X i) (Y j) (v i j)) := by
  have rows := Paints.loop fun j hj hj' => Paints.loop fun i hi hi' =>
    Paints.writePixel hl (hX i hi hi') (hY j hj hj') (hV i j hi hj)
  refine rows.congr fun px py _ _ => ⟨?_, ?_⟩
  · rintro ⟨j, hj, hj', i, hi, hi', hx, hy⟩
    exact ⟨⟨i, hi, hi', hx⟩, j, hj, hj', hy⟩
  · rintro ⟨⟨i, hi, hi', hx⟩, j, hj, hj', hy⟩
    exact ⟨j, hj, hj', i, hi, hi', hx, hy⟩

/-- A region painted at once. -/
theorem Paints.paintAll (hl : legal c = true) {paint : Nat → Nat → Option Bool}
    (hs : ∀ px py, S px py → paint px py = some (V px py)) (hn : ∀ px py, ¬ S px py → paint px py = none) :
    Paints c V S (paintAll c paint) where
  wf := fun m hm => wf_paintAll hm ..
  beyond := fun m _ a ha => by rw [read_paintAll, if_neg (by omega)]
  inside := fun m _ px py hx hy h => by rw [pixel_paintAll hl _ _ hx hy, hs px py h, Option.getD_some]
  outside := fun m _ px py hx hy h => by rw [pixel_paintAll hl _ _ hx hy, hn px py h, Option.getD_none]

end Paints

/-- The clamped integers of an interval are those between its clamped ends. -/
theorem exists_clamp_eq_iff {n : Nat} (hn : 0 < n) (lo size : Int) (q : Nat) :
    (∃ i, lo ≤ i ∧ i < lo + size ∧ q = (clamp i 0 (n - 1)).toNat) ↔
      1 ≤ size ∧ (clamp lo 0 (n - 1)).toNat ≤ q ∧ q ≤ (clamp (lo + size - 1) 0 (n - 1)).toNat := by
  unfold clamp
  constructor
  · rintro ⟨i, h0, h1, rfl⟩
    omega
  · rintro ⟨h1, h2, h3⟩
    exact ⟨max lo (min q (lo + size - 1)), by omega, by omega, by omega⟩

/-- R100's loop paints the clamped rectangle (R101). -/
theorem paints_setrectLoop {c : Config} (hl : legal c = true) (x y w h : Int) (v : Bool) :
    Paints c (fun _ _ => v) (InClampedRect c x y w h) (setrectLoop c x y w h v) := by
  have nested : Paints c (fun _ _ => v) _ (setrectLoop c x y w h v) :=
    Paints.nestedLoop hl (fun i _ _ => cx_lt hl i) (fun j _ _ => cy_lt hl j) fun _ _ _ _ => rfl
  refine nested.congr fun px py _ _ => ?_
  have columns : _ ↔ 1 ≤ w ∧ cx c x ≤ px ∧ px ≤ cx c (x + w - 1) := exists_clamp_eq_iff (legal_width_pos hl) x w px
  have rows : _ ↔ 1 ≤ h ∧ cy c y ≤ py ∧ py ≤ cy c (y + h - 1) := exists_clamp_eq_iff (legal_height_pos hl) y h py
  refine (and_congr columns rows).trans ?_
  unfold InClampedRect
  tauto

/-- R100's loop leaves the page RAM that SETRECT leaves at once (R101). -/
theorem setrectLoop_eq_paintAll {c : Config} (hl : legal c = true) (x y w h : Int) (v : Bool) {m : Memory}
    (hm : m.wf = true) : setrectLoop c x y w h v m = paintAll c (setrectPaint c x y w h v) m :=
  (paints_setrectLoop hl x y w h v).eq hl (Paints.paintAll hl (fun _ _ h => if_pos h) fun _ _ h => if_neg h) hm

/-- The pixels CHKRECT writes: those of the clipped region (R105). -/
def InClippedRect (c : Config) (x y w h : Int) (px py : Nat) : Prop :=
  clipLow x ≤ px ∧ px < clipHigh x w c.width ∧ clipLow y ≤ py ∧ py < clipHigh y h c.height

/-- What CHKRECT writes to a pixel of the clipped region (R105). -/
def chkrectValue (x y cell : Int) (px py : Nat) : Bool :=
  checkerValue (cellSize cell) (px - clipLow x) (py - clipLow y)

/-- The naturals a clipped loop runs through are those of its bounds. -/
theorem exists_toNat_eq_iff {lo hi : Int} (h : 0 ≤ lo) (q : Nat) :
    (∃ i, lo ≤ i ∧ i < lo + (hi - lo) ∧ q = i.toNat) ↔ lo ≤ q ∧ q < hi := by
  constructor
  · rintro ⟨i, h0, h1, rfl⟩
    omega
  · rintro ⟨h0, h1⟩
    exact ⟨q, h0, by omega, rfl⟩

theorem clipLow_nonneg (v : Int) : 0 ≤ clipLow v := le_max_right v 0

theorem clipHigh_le (v size bound : Int) : clipHigh v size bound ≤ bound := min_le_right _ _

/-- R105's loop paints the clipped region with the checkerboard. -/
theorem paints_chkrectLoop {c : Config} (hl : legal c = true) (x y w h cell : Int) :
    Paints c (chkrectValue x y cell) (InClippedRect c x y w h) (chkrectLoop c x y w h cell) := by
  have hx := clipLow_nonneg x
  have hy := clipLow_nonneg y
  have hw := clipHigh_le x w c.width
  have hh := clipHigh_le y h c.height
  have columns : ∀ i, clipLow x ≤ i → i < clipLow x + (clipHigh x w c.width - clipLow x) → i.toNat < c.width := by
    intro i hi hi'
    omega
  have rows : ∀ j, clipLow y ≤ j → j < clipLow y + (clipHigh y h c.height - clipLow y) → j.toNat < c.height := by
    intro j hj hj'
    omega
  have values : ∀ i j, clipLow x ≤ i → clipLow y ≤ j → chkrectValue x y cell i.toNat j.toNat =
      checkerValue (cellSize cell) (i - clipLow x) (j - clipLow y) := by
    intro i j hi hj
    rw [chkrectValue, Int.toNat_of_nonneg (hx.trans hi), Int.toNat_of_nonneg (hy.trans hj)]
  have nested : Paints c (chkrectValue x y cell) _ (chkrectLoop c x y w h cell) :=
    Paints.nestedLoop hl columns rows values
  refine nested.congr fun px py _ _ => ?_
  rw [exists_toNat_eq_iff hx, exists_toNat_eq_iff hy, and_assoc]
  rfl

/-- R105's loop leaves the page RAM that CHKRECT leaves at once. -/
theorem chkrectLoop_eq_paintAll {c : Config} (hl : legal c = true) (x y w h cell : Int) {m : Memory}
    (hm : m.wf = true) : chkrectLoop c x y w h cell m = paintAll c (chkrectPaint c x y w h cell) m :=
  (paints_chkrectLoop hl x y w h cell).eq hl (Paints.paintAll hl (fun _ _ h => if_pos h) fun _ _ h => if_neg h) hm

/-- CLEAR's writes to the addresses of a list: those bytes are zero, and no other changes (R110). -/
theorem foldl_write_zero {m : Memory} (hm : m.wf = true) (l : List Nat) :
    (l.foldl (fun acc i => acc.write i 0#8) m).wf = true ∧
      ∀ a, (l.foldl (fun acc i => acc.write i 0#8) m).read a = if a ∈ l then 0#8 else m.read a := by
  induction l generalizing m with
  | nil => exact ⟨hm, fun a => by simp⟩
  | cons i l ih =>
    obtain ⟨hwf, hread⟩ := ih (Memory.wf_write hm i 0#8)
    refine ⟨hwf, fun a => ?_⟩
    rw [List.foldl_cons, hread, Memory.read_write hm]
    by_cases hi : a = i <;> simp [hi]

/-- CLEAR byte by byte leaves the page RAM that CLEAR leaves at once (R110). -/
theorem foldl_write_zero_eq_update {m : Memory} (hm : m.wf = true) (n : Nat) :
    (List.range n).foldl (fun acc i => acc.write i 0#8) m = m.update n fun _ _ => 0#8 := by
  obtain ⟨hwf, hread⟩ := foldl_write_zero hm (List.range n)
  refine Memory.ext_read hwf (Memory.wf_update hm n _) fun a => ?_
  rw [hread, Memory.read_update]
  simp only [List.mem_range]

/-- Page RAM writes that leave `m` are, as effects, the one store of `m`. -/
theorem Writes.runEffects_eq_store {es : List Effect} {f : Memory → Memory} {s : State} (h : Writes s.cfg es f)
    {m : Memory} (hm : f s.fb = m) : s.runEffects es = s.runEffects [.store m] := by
  rw [h s rfl, hm, State.runEffects_store]

theorem runEffects_setrectWrites {s : State} (hl : legal s.cfg = true) (hm : s.fb.wf = true) (x y w h : Int)
    (v : Bool) : s.runEffects (setrectWrites s.cfg x y w h v) = s.runEffects (setrectEffects x y w h v s) :=
  (writes_setrect s.cfg x y w h v).runEffects_eq_store (setrectLoop_eq_paintAll hl x y w h v hm)

/-- Settles O31: SETRECT, CHKRECT and CLEAR write by write leave what they store at once; every other command runs its
effects as they are. -/
theorem singleEffectsMakeTheCommand : Obligations.SingleEffectsMakeTheCommand := by
  intro i s hl hm
  cases i with
  | clear => exact (writes_clear s.cfg (nbytes s.cfg)).runEffects_eq_store (foldl_write_zero_eq_update hm _)
  | setrect x y w h v => exact runEffects_setrectWrites hl hm x y w h v
  | fillrect x y w h => exact runEffects_setrectWrites hl hm x y w h true
  | clrrect x y w h => exact runEffects_setrectWrites hl hm x y w h false
  | chkrect x y w h cell =>
    exact (writes_chkrect s.cfg x y w h cell).runEffects_eq_store (chkrectLoop_eq_paintAll hl x y w h cell hm)
  | setpx x y v => rfl
  | getpx x y => rfl
  | invert v => rfl
  | flush => rfl

/-! ### What the sink has received (R45, R50) -/

/-- From `s` to `t` the record of the sink has only grown, by no empty transfer (R45). -/
def GrowsLog (s t : State) : Prop :=
  ∃ l, t.sinkLog = s.sinkLog ++ l ∧ ∀ kind bytes answer, .transfer kind bytes answer ∈ l → bytes ≠ []

theorem GrowsLog.of_eq {s t : State} (h : t.sinkLog = s.sinkLog) : GrowsLog s t :=
  ⟨[], by rw [h, List.append_nil], nofun⟩

theorem GrowsLog.emit {s t : State} (h : GrowsLog s t) (kind : TransferKind) {bytes : List Byte} (hb : bytes ≠ []) :
    GrowsLog s (t.emit kind bytes) := by
  obtain ⟨l, hl, nonempty⟩ := h
  refine ⟨l ++ [.transfer kind bytes t.nextAnswer], by simp [hl], fun kind' bytes' answer' hmem => ?_⟩
  rcases List.mem_append.1 hmem with hmem | hmem
  · exact nonempty _ _ _ hmem
  · cases List.mem_singleton.1 hmem
    exact hb

theorem GrowsLog.offerPin (s : State) (level : Bool) : GrowsLog s (s.offerPin level) :=
  ⟨_, rfl, fun kind bytes answer hmem => by cases List.mem_singleton.1 hmem⟩

/-- Whether the record has grown depends on the two records alone. -/
theorem GrowsLog.congr {s s' t t' : State} (h : GrowsLog s t) (hs : s'.sinkLog = s.sinkLog)
    (ht : t'.sinkLog = t.sinkLog) : GrowsLog s' t' := by
  unfold GrowsLog
  rwa [hs, ht]

/-- An action of the reset sequence offers the pin, an entry of the table, or nothing (R160). -/
theorem sequenceStep_growsLog {s : State} (hl : legal s.cfg = true) (p : SeqPoint) : GrowsLog s (sequenceStep p s) := by
  obtain ⟨-, -, -, -, -, entries⟩ := (legal_iff s.cfg).1 hl
  cases p with
  | assertPin =>
    refine (GrowsLog.offerPin s s.cfg.rstActiveLevel).congr rfl ?_
    cases ha : s.nextAnswer <;> simp [sequenceStep, Machine.assertPin, ha]
  | waitAsserted => exact .of_eq rfl
  | deassertPin =>
    refine (GrowsLog.offerPin s (!s.cfg.rstActiveLevel)).congr rfl ?_
    cases ha : s.nextAnswer <;> simp [sequenceStep, Machine.deassertPin, ha]
  | waitDeasserted => exact .of_eq rfl
  | entry k =>
    cases hk : s.cfg.initTable[k]? with
    | none => exact .of_eq (by simp [sequenceStep, offerEntry, hk])
    | some bytes =>
      refine ((GrowsLog.of_eq rfl).emit .cmd (entries bytes (List.mem_of_getElem? hk))).congr rfl ?_
      cases ha : s.nextAnswer <;> simp [sequenceStep, offerEntry, hk, ha]

/-- A legal display has a byte of page RAM (R8). -/
theorem nbytes_pos {c : Config} (hl : legal c = true) : 0 < nbytes c :=
  Nat.zero_lt_of_lt (byteIndex_lt hl (legal_width_pos hl) (legal_height_pos hl))

theorem pageBytes_ne_nil {c : Config} (hl : legal c = true) (m : Memory) : pageBytes c m ≠ [] := by
  have := nbytes_pos hl
  intro h
  simp [pageBytes] at h
  omega

/-- Only INVERT and FLUSH have transfers, and none of them is empty (R45, R120, R125). -/
theorem IsEffectOf.bytes_ne_nil {i : Instr} {s : State} {kind : TransferKind} {bytes : List Byte}
    (hl : legal s.cfg = true) (he : IsEffectOf i s (.emit kind bytes)) : bytes ≠ [] := by
  cases i with
  | invert v =>
    simp only [IsEffectOf, effectsOf, singleEffects, invertEffects, or_self, List.mem_cons, List.not_mem_nil, or_false,
      reduceCtorEq, false_or, Effect.emit.injEq] at he
    simp [he.2]
  | flush =>
    simp only [IsEffectOf, effectsOf, singleEffects, flushEffects, or_self, List.mem_cons, List.not_mem_nil, or_false,
      Effect.emit.injEq] at he
    rcases he with ⟨-, rfl⟩ | ⟨-, rfl⟩ | ⟨-, rfl⟩
    · simp [columnWindow]
    · simp [pageWindow]
    · exact pageBytes_ne_nil hl s.fb
  | _ =>
    simp [IsEffectOf, effectsOf, singleEffects, clearEffects, clearWrites, setpxEffects, getpxEffects, setrectEffects,
      setrectWrites, chkrectEffects, chkrectWrites, loopEffects] at he

/-- Effects without an empty transfer add none to the record. -/
theorem State.runEffects_growsLog {es : List Effect} (h : ∀ kind bytes, .emit kind bytes ∈ es → bytes ≠ [])
    (s : State) : GrowsLog s (s.runEffects es).1 := by
  refine State.runEffects_keeps (fun e he t ht => ?_) (GrowsLog.of_eq rfl)
  cases e with
  | emit kind bytes => exact ht.emit kind (h kind bytes he)
  | _ => exact ht

theorem AcceptedStep.growsLog {s t : State} {cmd : Word} {es : List Effect} (hl : legal s.cfg = true)
    (h : AcceptedStep s cmd es t) : GrowsLog s t := by
  have nonempty : ∀ kind bytes, .emit kind bytes ∈ es → bytes ≠ [] := fun kind bytes he => by
    obtain ⟨-, i, -, hei⟩ := h.effects _ he
    exact hei.bytes_ne_nil hl
  exact (State.runEffects_growsLog nonempty s.tick.accept).congr rfl (by rw [h.result])

/-- A block that takes a step is a buildable one (R8). -/
theorem legal_of_step {s t : State} (h : step s = .next t) : legal s.cfg = true := by
  refine (Bool.not_eq_false _).mp fun hl => ?_
  rw [(step_eq_refused_illegalConfiguration_iff s).2 hl] at h
  cases h

/-- Settles O35: each kind of step that offers something to the sink offers no empty transfer, and only the taking of a
response adds to those taken. -/
theorem outputsOnlyGrow : Obligations.OutputsOnlyGrow := by
  intro s t h
  have hl := legal_of_step h
  cases stepKind_of_step h with
  | held frame reset => rw [frame]; exact ⟨GrowsLog.of_eq rfl, .inl rfl⟩
  | released reset event result => rw [result]; exact ⟨GrowsLog.of_eq rfl, .inl rfl⟩
  | sequenced p phase result =>
    have grows : GrowsLog s (sequenceStep p s.tick) := sequenceStep_growsLog (s := s.tick) hl p
    refine result ▸ ⟨grows, .inl ?_⟩
    rw [sequenceStep_frame]
    rfl
  | taken r pending ready phase result => rw [result]; exact ⟨GrowsLog.of_eq rfl, .inr ⟨r, pending, rfl⟩⟩
  | accepted cmd es step =>
    obtain ⟨-, -, -, -, htaken⟩ := step.unchanged
    exact ⟨step.growsLog hl, .inl htaken⟩

/-! ### SETPX (R44, R80) -/

/-- Bit by bit, a pixel write is the write of its own bit (R44). -/
theorem getLsbD_read_writePixel (c : Config) {m : Memory} (hm : m.wf = true) (px py : Nat) (v : Bool) (a : Nat)
    {k : Nat} (hk : k < 8) : ((writePixel c px py v m).read a).getLsbD k =
      if a = byteIndex c px py ∧ k = bitIndex py then v else (m.read a).getLsbD k := by
  rw [read_writePixel c hm]
  by_cases ha : a = byteIndex c px py
  · rw [if_pos ha, getLsbD_setBit _ hk, ha]
    simp
  · rw [if_neg ha, if_neg fun h => ha h.1]

/-- Settles O41: in `READY` SETPX stores one pixel write. -/
theorem setpxChangesOneBit : Obligations.SetpxChangesOneBit := by
  intro x y v s t hm hp h a k hk
  have stored : exec (.setpx x y v) s = _ := execute_store hp _ false
  rw [stored] at h
  cases h
  exact getLsbD_read_writePixel s.cfg hm _ _ v a hk

/-! ### FLUSH accepted (R47, R125) -/

/-- Transfers the sink accepts are offered one after another, each with its answer `ok`, and use up as many answers. -/
theorem State.runEffects_emits_ok {s : State} {ts : List (TransferKind × List Byte)}
    (h : ∀ k, k < ts.length → s.answerAt k = .ok) :
    s.runEffects (ts.map fun t => .emit t.1 t.2) = ({ s with
      answers := s.answers.drop ts.length
      draws := s.draws + ts.length
      sinkLog := s.sinkLog ++ ts.map fun t => .transfer t.1 t.2 .ok }, .ok) := by
  induction ts generalizing s with
  | nil => simp [State.runEffects_nil]
  | cons t ts ih =>
    have first : s.nextAnswer = .ok := s.nextAnswer_eq.trans (h 0 (by simp))
    have rest : ∀ k, k < ts.length → (s.emit t.1 t.2).answerAt k = .ok := fun k hk =>
      (s.emit_answerAt t.1 t.2 k).trans (h (k + 1) (by simpa using hk))
    rw [List.map_cons, State.runEffects_cons_ok (e := .emit t.1 t.2) first]
    exact (ih rest).trans (by simp [State.emit, first, Nat.add_assoc, Nat.add_comm 1])

/-- The stream of a FLUSH (R125): the two windows, then the page RAM. -/
def flushStream (c : Config) (m : Memory) : List (TransferKind × List Byte) :=
  [(.cmd, columnWindow c), (.cmd, pageWindow c), (.data, pageBytes c m)]

theorem flushEffects_eq (s : State) :
    flushEffects s = (flushStream s.cfg s.fb).map fun t => .emit t.1 t.2 := rfl

/-- A FLUSH the sink accepts in `READY` offers its stream and answers `OK` (R125). -/
theorem exec_flush_ok {s : State} (hp : s.phase = .ready) (h : ∀ k, k < 3 → s.answerAt k = .ok) :
    exec .flush s = .next { s with
      answers := s.answers.drop 3
      draws := s.draws + 3
      sinkLog := s.sinkLog ++ (flushStream s.cfg s.fb).map fun t => .transfer t.1 t.2 .ok
      resp := some (responseByte .ok false) } := by
  have run := State.runEffects_emits_ok (ts := flushStream s.cfg s.fb) h
  have executed : exec .flush s = _ := execute_ready hp (flushEffects s) false
  rw [executed, flushEffects_eq, State.complete, run]
  rfl

/-- Settles O58: the first FLUSH leaves the page RAM, so the second has the same stream, and the next three answers. -/
theorem flushTwiceEmitsTwice : Obligations.FlushTwiceEmitsTwice := by
  intro s t u hp accepted ht hu
  rw [exec_flush_ok hp fun k hk => accepted k (by omega)] at ht
  cases ht
  rw [exec_flush_ok (by exact hp) fun k hk => ?_] at hu
  · cases hu
    exact ⟨_, rfl, rfl, rfl⟩
  · have third := accepted (3 + k) (by omega)
    simpa [State.answerAt, Nat.add_assoc] using third

end Sys2Proof.Machine
end

section
/-! SUPPORT. The family `30_encoding`: the operands of a word by R62's formulas, decoding by R64's rows, encoding and
decoding as inverses, R68's formula, and the two pseudo-instructions of R69. -/

namespace Sys2Proof.Machine

/-! ### Operands (R62) -/

/-- Bits read as a two's complement number are R11's `sext` of R10's bit range. -/
theorem toInt_extractLsb' (cmd : Word) (lo : Nat) {n : Nat} (hn : 0 < n) :
    (cmd.extractLsb' lo n).toInt = sext n (bitsAt cmd lo n) := by
  have half : 2 ^ n = 2 * 2 ^ (n - 1) := by rw [← Nat.pow_succ', Nat.succ_eq_add_one, Nat.sub_add_cancel hn]
  have bits : (cmd.extractLsb' lo n).toNat = bitsAt cmd lo n := by
    rw [BitVec.extractLsb'_toNat, Nat.shiftRight_eq_div_pow, bitsAt]
  rw [BitVec.toInt_eq_toNat_cond, bits, sext]
  by_cases h : 2 ^ (n - 1) ≤ bitsAt cmd lo n
  · rw [if_neg (by omega), if_pos h]
    push_cast
    rfl
  · rw [if_pos (by omega), if_neg h]

theorem operandV_eq (cmd : Word) : operandV cmd = decide (bitsAt cmd 56 1 = 1) :=
  Nat.testBit_eq_decide_div_mod_eq

theorem rangeS8_toInt (f : BitVec 8) : RangeS8 f.toInt :=
  ⟨f.le_toInt, Int.le_of_lt_add_one f.toInt_lt⟩

theorem rangeS12_toInt (f : BitVec 12) : RangeS12 f.toInt :=
  ⟨f.le_toInt, Int.le_of_lt_add_one f.toInt_lt⟩

/-- The sum of two 12-bit operands, unwrapped (R62). -/
theorem sum_of_rangeS12 {a b : Int} (ha : RangeS12 a) (hb : RangeS12 b) : -4096 ≤ a + b ∧ a + b ≤ 4094 := by
  unfold RangeS12 at ha hb
  omega

/-- Settles O12: each operand is the sign-extended bit range of its field, and a sum of two integers in range cannot
leave the range of sums. -/
theorem operandsSignExtended : Obligations.OperandsSignExtended := by
  intro cmd
  have hx : RangeS12 (operandX cmd) := rangeS12_toInt (fieldX cmd)
  have hy : RangeS12 (operandY cmd) := rangeS12_toInt (fieldY cmd)
  have hw : RangeS12 (operandW cmd) := rangeS12_toInt (fieldW cmd)
  have hh : RangeS12 (operandH cmd) := rangeS12_toInt (fieldH cmd)
  have sext12 : ∀ lo, (cmd.extractLsb' lo 12).toInt = sext 12 (bitsAt cmd lo 12) := fun lo =>
    toInt_extractLsb' cmd lo (by decide)
  exact ⟨operandV_eq cmd, toInt_extractLsb' cmd 48 (by decide), sext12 36, sext12 24, sext12 12, sext12 0,
    rangeS8_toInt (fieldC cmd), hx, hy, hw, hh, sum_of_rangeS12 hx hw, sum_of_rangeS12 hy hh⟩

/-! ### Rows (R64) -/

/-- Every row masks the whole of `OP`, so it fixes the opcode of the words it matches. -/
theorem fieldOP_of_hits {r : OpcodeRow} (hr : r ∈ opcodeRows) {cmd : Word} (h : r.hits cmd = true) :
    fieldOP cmd = fieldOP r.value := by
  have masked : ∀ r ∈ opcodeRows, fieldOP r.mask = 15#4 := by decide
  obtain ⟨hop, -⟩ := (hits_iff_fields r cmd).1 h
  rwa [masked r hr, and_ones4] at hop

/-- No two rows have the same opcode, so at most one matches. -/
theorem row_eq_of_hits {r r' : OpcodeRow} (hr : r ∈ opcodeRows) (hr' : r' ∈ opcodeRows) {cmd : Word}
    (h : r.hits cmd = true) (h' : r'.hits cmd = true) : r = r' := by
  have distinct : ∀ r ∈ opcodeRows, ∀ r' ∈ opcodeRows, fieldOP r.value = fieldOP r'.value → r = r' := by decide
  exact distinct r hr r' hr' ((fieldOP_of_hits hr h).symm.trans (fieldOP_of_hits hr' h'))

/-- The command a row gives the words it matches, with their operands (R62, R64). -/
inductive RowCommand (cmd : Word) : OpcodeRow → Instr → Prop where
  | clear : RowCommand cmd rowClear .clear
  | setpx : RowCommand cmd rowSetpx (.setpx (operandX cmd) (operandY cmd) (operandV cmd))
  | getpx : RowCommand cmd rowGetpx (.getpx (operandX cmd) (operandY cmd))
  | setrect : RowCommand cmd rowSetrect
      (.setrect (operandX cmd) (operandY cmd) (operandW cmd) (operandH cmd) (operandV cmd))
  | chkrect : RowCommand cmd rowChkrect
      (.chkrect (operandX cmd) (operandY cmd) (operandW cmd) (operandH cmd) (operandC cmd))
  | invert : RowCommand cmd rowInvert (.invert (operandV cmd))
  | flush : RowCommand cmd rowFlush .flush

theorem RowCommand.mem {cmd : Word} {r : OpcodeRow} {i : Instr} (h : RowCommand cmd r i) : r ∈ opcodeRows := by
  cases h <;> decide

/-- A row has one command: the rows of two different commands differ. -/
theorem RowCommand.unique {cmd : Word} {r : OpcodeRow} {i j : Instr} (hi : RowCommand cmd r i)
    (hj : RowCommand cmd r j) : i = j := by
  cases hi <;> cases hj <;> rfl

/-- A word decodes to the command of a row it matches, or matches no row and is rejected. -/
theorem decode_cases (cmd : Word) :
    (∃ r i, RowCommand cmd r i ∧ r.hits cmd = true ∧ decode cmd = .ok i) ∨
    ((∀ r ∈ opcodeRows, r.hits cmd = false) ∧ decode cmd = .error (rejectReason cmd)) := by
  unfold decode
  split_ifs with h1 h2 h3 h4 h5 h6 h7
  · exact .inl ⟨_, _, .clear, h1, rfl⟩
  · exact .inl ⟨_, _, .setpx, h2, rfl⟩
  · exact .inl ⟨_, _, .getpx, h3, rfl⟩
  · exact .inl ⟨_, _, .setrect, h4, rfl⟩
  · exact .inl ⟨_, _, .chkrect, h5, rfl⟩
  · exact .inl ⟨_, _, .invert, h6, rfl⟩
  · exact .inl ⟨_, _, .flush, h7, rfl⟩
  · exact .inr ⟨by simp [opcodeRows, h1, h2, h3, h4, h5, h6, h7], rfl⟩

/-- The row a word matches decides its command, since it matches no other. -/
theorem decode_of_hits {cmd : Word} {r : OpcodeRow} {i : Instr} (hi : RowCommand cmd r i) (h : r.hits cmd = true) :
    decode cmd = .ok i := by
  rcases decode_cases cmd with ⟨r', j, hj, hit, decoded⟩ | ⟨missed, -⟩
  · obtain rfl := row_eq_of_hits hj.mem hi.mem hit h
    rw [decoded, hj.unique hi]
  · rw [missed r hi.mem] at h
    cases h

/-- A word that matches no row is rejected (R64). -/
theorem decode_of_no_hits {cmd : Word} (h : ∀ r ∈ opcodeRows, r.hits cmd = false) :
    decode cmd = .error (rejectReason cmd) := by
  rcases decode_cases cmd with ⟨r, i, hi, hit, -⟩ | ⟨-, rejected⟩
  · rw [h r hi.mem] at hit
    cases hit
  · exact rejected

/-- A word that decodes matches the row of its command. -/
theorem rowCommand_of_decode {cmd : Word} {i : Instr} (h : decode cmd = .ok i) :
    ∃ r, RowCommand cmd r i ∧ r.hits cmd = true := by
  rcases decode_cases cmd with ⟨r, j, hj, hit, decoded⟩ | ⟨-, rejected⟩
  · rw [h] at decoded
    cases decoded
    exact ⟨r, hj, hit⟩
  · rw [h] at rejected
    cases rejected

/-- Settles O13: a clause for each row, and one for the words that match none. -/
theorem decodeFollowsMatchAndMask : Obligations.DecodeFollowsMatchAndMask := by
  intro cmd
  have matched : ∀ {r i}, RowCommand cmd r i → cmd &&& r.mask = r.value → decode cmd = .ok i := fun hi h =>
    decode_of_hits hi (beq_iff_eq.2 h)
  exact ⟨fun r hr r' hr' => row_eq_of_hits hr hr', matched .clear, matched .setpx, matched .getpx, matched .setrect,
    matched .chkrect, matched .invert, matched .flush, fun h => ⟨_, decode_of_no_hits h⟩⟩

/-- A word decodes exactly when it matches a row. -/
theorem exists_decode_iff (cmd : Word) : (∃ i, decode cmd = .ok i) ↔ ∃ r ∈ opcodeRows, r.hits cmd = true := by
  constructor
  · rintro ⟨i, h⟩
    obtain ⟨r, hi, hit⟩ := rowCommand_of_decode h
    exact ⟨r, hi.mem, hit⟩
  · rintro ⟨r, hr, hit⟩
    rcases decode_cases cmd with ⟨-, i, -, -, decoded⟩ | ⟨missed, -⟩
    · exact ⟨i, decoded⟩
    · rw [missed r hr] at hit
      cases hit

/-- Settles O14: some row of R64 matches, and each row asks for what R63's table says. -/
theorem decodeAsksForZeroFields : Obligations.DecodeAsksForZeroFields := by
  intro cmd
  rw [exists_decode_iff]
  simp only [opcodeRows, List.exists_mem_cons_iff, List.not_mem_nil, false_and, exists_false, or_false, rowClear_hits,
    rowSetpx_hits, rowGetpx_hits, rowSetrect_hits, rowChkrect_hits, rowInvert_hits, rowFlush_hits, and_or_left,
    and_left_comm (a := fieldRSV cmd = 0#3)]

/-! ### Reserved opcodes (R65) -/

/-- A word with a reserved opcode matches no row, whose opcodes are 0x1 .. 0x7. -/
theorem decode_of_reserved {cmd : Word} (h : fieldOP cmd = 0x0#4 ∨ 0x8#4 ≤ fieldOP cmd) :
    decode cmd = .error (.reservedOpcode (fieldOP cmd)) := by
  have assigned : ∀ r ∈ opcodeRows, ¬(fieldOP r.value = 0x0#4 ∨ 0x8#4 ≤ fieldOP r.value) := by decide
  have missed : ∀ r ∈ opcodeRows, r.hits cmd = false := fun r hr => Bool.eq_false_iff.2 fun hit =>
    assigned r hr (fieldOP_of_hits hr hit ▸ h)
  rw [decode_of_no_hits missed, rejectReason, if_pos h]

/-- An accepted word that decodes to no command is answered `ILLEGAL_COMMAND` in `READY` (R141, R145). -/
theorem runCommand_of_reject {s : State} {cmd : Word} {why : DecodeReject} (hp : s.phase = .ready)
    (hd : decode cmd = .error why) : runCommand cmd s = .next (s.raiseError .illegalCommand) := by
  simp [runCommand, verdictOf, hp, hd]

/-- Settles O15: the word does not decode, and the step that accepts it only answers. -/
theorem reservedOpcodesIllegal : Obligations.ReservedOpcodesIllegal := by
  refine ⟨fun cmd h => ⟨decode_of_reserved h, fun s hu ho hp => ?_⟩, decode_of_reserved (.inl rfl)⟩
  exact (step_of_offers hu ho (.inl hp)).trans (runCommand_of_reject (s := s.tick.accept) hp (decode_of_reserved h))

/-! ### Encoding and decoding are inverses (R62, R64, R68, R69) -/

theorem operandV_assemble (op : BitVec 4) (v : Bool) (c x y w h : Int) : operandV (assemble op v c x y w h) = v :=
  fieldV_assemble ..

/-- An operand in range comes back from its field. -/
theorem operandC_assemble {c : Int} (hc : inS8 c = true) (op : BitVec 4) (v : Bool) (x y w h : Int) :
    operandC (assemble op v c x y w h) = c := by
  rw [operandC, fieldC_assemble, toInt_ofInt_s8 hc]

theorem operandX_assemble {x : Int} (hx : inS12 x = true) (op : BitVec 4) (v : Bool) (c y w h : Int) :
    operandX (assemble op v c x y w h) = x := by
  rw [operandX, fieldX_assemble, toInt_ofInt_s12 hx]

theorem operandY_assemble {y : Int} (hy : inS12 y = true) (op : BitVec 4) (v : Bool) (c x w h : Int) :
    operandY (assemble op v c x y w h) = y := by
  rw [operandY, fieldY_assemble, toInt_ofInt_s12 hy]

theorem operandW_assemble {w : Int} (hw : inS12 w = true) (op : BitVec 4) (v : Bool) (c x y h : Int) :
    operandW (assemble op v c x y w h) = w := by
  rw [operandW, fieldW_assemble, toInt_ofInt_s12 hw]

theorem operandH_assemble {h : Int} (hh : inS12 h = true) (op : BitVec 4) (v : Bool) (c x y w : Int) :
    operandH (assemble op v c x y w h) = h := by
  rw [operandH, fieldH_assemble, toInt_ofInt_s12 hh]

/-- The word of a well-formed SETRECT decodes to it: the case FILLRECT and CLRRECT share (R69). -/
theorem decode_encode_setrect {x y w h : Int} {v : Bool} (hwf : (Instr.setrect x y w h v).wf = true) :
    decode (encode (.setrect x y w h v)) = .ok (.setrect x y w h v) := by
  simp only [Instr.wf, Bool.and_eq_true] at hwf
  obtain ⟨⟨⟨hx, hy⟩, hw⟩, hh⟩ := hwf
  have hit : rowSetrect.hits (encode (.setrect x y w h v)) = true :=
    (rowSetrect_hits _).2 ⟨fieldOP_assemble .., fieldRSV_assemble .., fieldC_assemble ..⟩
  rw [decode_of_hits .setrect hit]
  simp only [encode, operandV_assemble, operandX_assemble hx, operandY_assemble hy, operandW_assemble hw,
    operandH_assemble hh]

/-- Settles O16: the word of each command matches its row, and its operands come back from their fields. -/
theorem decodeInvertsEncode : Obligations.DecodeInvertsEncode := by
  intro i hwf
  cases i with
  | clear =>
    exact decode_of_hits .clear ((rowClear_hits _).2 ⟨fieldOP_assemble .., fieldRSV_assemble .., fieldV_assemble ..,
      fieldC_assemble .., fieldX_assemble .., fieldY_assemble .., fieldW_assemble .., fieldH_assemble ..⟩)
  | setpx x y v =>
    simp only [Instr.wf, Bool.and_eq_true] at hwf
    obtain ⟨hx, hy⟩ := hwf
    have hit : rowSetpx.hits (encode (.setpx x y v)) = true :=
      (rowSetpx_hits _).2 ⟨fieldOP_assemble .., fieldRSV_assemble .., fieldC_assemble .., fieldW_assemble ..,
        fieldH_assemble ..⟩
    rw [decode_of_hits .setpx hit]
    simp only [encode, Instr.expand, operandV_assemble, operandX_assemble hx, operandY_assemble hy]
  | getpx x y =>
    simp only [Instr.wf, Bool.and_eq_true] at hwf
    obtain ⟨hx, hy⟩ := hwf
    have hit : rowGetpx.hits (encode (.getpx x y)) = true :=
      (rowGetpx_hits _).2 ⟨fieldOP_assemble .., fieldRSV_assemble .., fieldV_assemble .., fieldC_assemble ..,
        fieldW_assemble .., fieldH_assemble ..⟩
    rw [decode_of_hits .getpx hit]
    simp only [encode, Instr.expand, operandX_assemble hx, operandY_assemble hy]
  | setrect x y w h v => exact decode_encode_setrect (v := v) hwf
  | chkrect x y w h c =>
    simp only [Instr.wf, Bool.and_eq_true] at hwf
    obtain ⟨⟨⟨⟨hx, hy⟩, hw⟩, hh⟩, hc⟩ := hwf
    have hit : rowChkrect.hits (encode (.chkrect x y w h c)) = true :=
      (rowChkrect_hits _).2 ⟨fieldOP_assemble .., fieldRSV_assemble .., fieldV_assemble ..⟩
    rw [decode_of_hits .chkrect hit]
    simp only [encode, Instr.expand, operandC_assemble hc, operandX_assemble hx, operandY_assemble hy,
      operandW_assemble hw, operandH_assemble hh]
  | invert v =>
    have hit : rowInvert.hits (encode (.invert v)) = true :=
      (rowInvert_hits _).2 ⟨fieldOP_assemble .., fieldRSV_assemble .., fieldC_assemble .., fieldX_assemble ..,
        fieldY_assemble .., fieldW_assemble .., fieldH_assemble ..⟩
    rw [decode_of_hits .invert hit]
    simp only [encode, Instr.expand, operandV_assemble]
  | flush =>
    exact decode_of_hits .flush ((rowFlush_hits _).2 ⟨fieldOP_assemble .., fieldRSV_assemble .., fieldV_assemble ..,
      fieldC_assemble .., fieldX_assemble .., fieldY_assemble .., fieldW_assemble .., fieldH_assemble ..⟩)
  | fillrect x y w h => exact decode_encode_setrect (v := true) hwf
  | clrrect x y w h => exact decode_encode_setrect (v := false) hwf

theorem inS12_iff {v : Int} : inS12 v = true ↔ RangeS12 v := by
  simp [inS12, RangeS12]

theorem inS8_iff {v : Int} : inS8 v = true ↔ RangeS8 v := by
  simp [inS8, RangeS8]

theorem inS12_toInt (f : BitVec 12) : inS12 f.toInt = true := inS12_iff.2 (rangeS12_toInt f)

theorem inS8_toInt (f : BitVec 8) : inS8 f.toInt = true := inS8_iff.2 (rangeS8_toInt f)

/-- The operands of every word are in range (R62), so the command of any row is well formed. -/
theorem RowCommand.wf {cmd : Word} {r : OpcodeRow} {i : Instr} (h : RowCommand cmd r i) : i.wf = true := by
  cases h <;> simp [Instr.wf, operandX, operandY, operandW, operandH, operandC, inS12_toInt, inS8_toInt]

/-- A word is what is assembled from its fields, when its `RSV` is zero (R60, R68). -/
theorem assemble_of_fields {cmd : Word} {op : BitVec 4} {v : Bool} {c x y w h : Int} (hop : fieldOP cmd = op)
    (hrsv : fieldRSV cmd = 0#3) (hv : fieldV cmd = v) (hc : fieldC cmd = BitVec.ofInt 8 c)
    (hx : fieldX cmd = BitVec.ofInt 12 x) (hy : fieldY cmd = BitVec.ofInt 12 y) (hw : fieldW cmd = BitVec.ofInt 12 w)
    (hh : fieldH cmd = BitVec.ofInt 12 h) : assemble op v c x y w h = cmd :=
  word_ext ((fieldOP_assemble ..).trans hop.symm) ((fieldRSV_assemble ..).trans hrsv.symm)
    ((fieldV_assemble ..).trans hv.symm) ((fieldC_assemble ..).trans hc.symm) ((fieldX_assemble ..).trans hx.symm)
    ((fieldY_assemble ..).trans hy.symm) ((fieldW_assemble ..).trans hw.symm) ((fieldH_assemble ..).trans hh.symm)

/-- A word that matches a row is the word of its command: the row asks that what the command does not say is zero. -/
theorem encode_of_hits {cmd : Word} {r : OpcodeRow} {i : Instr} (hi : RowCommand cmd r i) (h : r.hits cmd = true) :
    encode i = cmd := by
  have back8 : ∀ f : BitVec 8, f = BitVec.ofInt 8 f.toInt := fun f => BitVec.ofInt_toInt.symm
  have back12 : ∀ f : BitVec 12, f = BitVec.ofInt 12 f.toInt := fun f => BitVec.ofInt_toInt.symm
  cases hi with
  | clear =>
    obtain ⟨hop, hrsv, hv, hc, hx, hy, hw, hh⟩ := (rowClear_hits cmd).1 h
    exact assemble_of_fields hop hrsv hv hc hx hy hw hh
  | setpx =>
    obtain ⟨hop, hrsv, hc, hw, hh⟩ := (rowSetpx_hits cmd).1 h
    exact assemble_of_fields hop hrsv rfl hc (back12 _) (back12 _) hw hh
  | getpx =>
    obtain ⟨hop, hrsv, hv, hc, hw, hh⟩ := (rowGetpx_hits cmd).1 h
    exact assemble_of_fields hop hrsv hv hc (back12 _) (back12 _) hw hh
  | setrect =>
    obtain ⟨hop, hrsv, hc⟩ := (rowSetrect_hits cmd).1 h
    exact assemble_of_fields hop hrsv rfl hc (back12 _) (back12 _) (back12 _) (back12 _)
  | chkrect =>
    obtain ⟨hop, hrsv, hv⟩ := (rowChkrect_hits cmd).1 h
    exact assemble_of_fields hop hrsv hv (back8 _) (back12 _) (back12 _) (back12 _) (back12 _)
  | invert =>
    obtain ⟨hop, hrsv, hc, hx, hy, hw, hh⟩ := (rowInvert_hits cmd).1 h
    exact assemble_of_fields hop hrsv rfl hc hx hy hw hh
  | flush =>
    obtain ⟨hop, hrsv, hv, hc, hx, hy, hw, hh⟩ := (rowFlush_hits cmd).1 h
    exact assemble_of_fields hop hrsv hv hc hx hy hw hh

/-- Settles O17: the word matches the row of its command, and no row's command is a pseudo-instruction. -/
theorem encodeInvertsDecode : Obligations.EncodeInvertsDecode := by
  intro cmd i h
  obtain ⟨r, hi, hit⟩ := rowCommand_of_decode h
  exact ⟨hi.wf, encode_of_hits hi hit, expand_of_decode h⟩

/-! ### The assembler (R68) -/

/-- Side by side is one number above the other. -/
theorem toNat_append_eq_add {m n : Nat} (a : BitVec m) (b : BitVec n) :
    (a ++ b).toNat = a.toNat * 2 ^ n + b.toNat := by
  rw [BitVec.toNat_append, ← Nat.shiftLeft_add_eq_or_of_lt b.isLt, Nat.shiftLeft_eq]

/-- The fields side by side are R68's sum: each is smaller than the weight of the one above it. -/
theorem assemble_eq_formulaWord (op : BitVec 4) (v : Bool) (c x y w h : Int) :
    assemble op v c x y w h = formulaWord op.toNat v c x y w h := by
  apply BitVec.eq_of_toNat_eq
  have hop := op.isLt
  have hv := v.toNat_lt
  simp only [assemble, formulaWord, toNat_append_eq_add, BitVec.toNat_ofBool, BitVec.toNat_ofInt, BitVec.toNat_ofNat]
  omega

/-- The checking assembler gives a command's word exactly where the operands are in range. -/
theorem assembleChecked_of_wf_iff {i : Instr} {inRange : Prop} {cmd : Word} (hwf : i.wf = true ↔ inRange)
    (hw : encode i = cmd) : (inRange → assembleChecked i = some cmd) ∧ (¬inRange → assembleChecked i = none) :=
  ⟨fun h => (if_pos (hwf.2 h)).trans (congrArg some hw), fun h => if_neg (h ∘ hwf.1)⟩

/-- Settles O18: the word is R68's formula, and each command is well formed exactly when R68's ranges hold. -/
theorem assemblerFollowsFormula : Obligations.AssemblerFollowsFormula := by
  refine ⟨congrArg some (assemble_eq_formulaWord 1 ..), fun x y v => ?_, fun x y => ?_, fun x y w h v => ?_,
    fun x y w h c => ?_, fun v => congrArg some (assemble_eq_formulaWord 6 ..),
    congrArg some (assemble_eq_formulaWord 7 ..)⟩
  · exact assembleChecked_of_wf_iff (by simp only [Instr.wf, Bool.and_eq_true, inS12_iff])
      (assemble_eq_formulaWord 2 ..)
  · exact assembleChecked_of_wf_iff (by simp only [Instr.wf, Bool.and_eq_true, inS12_iff])
      (assemble_eq_formulaWord 3 ..)
  · exact assembleChecked_of_wf_iff (by simp only [Instr.wf, Bool.and_eq_true, inS12_iff, and_assoc])
      (assemble_eq_formulaWord 4 ..)
  · exact assembleChecked_of_wf_iff (by simp only [Instr.wf, Bool.and_eq_true, inS12_iff, inS8_iff, and_assoc])
      (assemble_eq_formulaWord 5 ..)

/-! ### The pseudo-instructions (R69) -/

/-- SETRECT's effect in `READY` completes, and paints the pixels between the clamped corners (R101, R102). -/
theorem execute_setrectEffects {s : State} (hl : legal s.cfg = true) (hm : s.fb.wf = true) (hp : s.phase = .ready)
    (x y w h : Int) (v : Bool) :
    ∃ m, execute (setrectEffects x y w h v s) false s = .next { s with fb := m, resp := some 0x00#8 } ∧
      (∀ px py, px < s.cfg.width → py < s.cfg.height →
        (InClampedRect s.cfg x y w h px py → pixel s.cfg m px py = v) ∧
        (¬InClampedRect s.cfg x y w h px py → pixel s.cfg m px py = pixel s.cfg s.fb px py)) ∧
      (∀ a, nbytes s.cfg ≤ a → m.read a = s.fb.read a) := by
  have paints : Paints s.cfg (fun _ _ => v) (InClampedRect s.cfg x y w h)
      (paintAll s.cfg (setrectPaint s.cfg x y w h v)) :=
    Paints.paintAll hl (fun _ _ inside => if_pos inside) fun _ _ outside => if_neg outside
  exact ⟨_, execute_store hp _ false, fun px py hx hy => ⟨paints.inside s.fb hm px py hx hy,
    paints.outside s.fb hm px py hx hy⟩, paints.beyond s.fb hm⟩

/-- Settles O48: FILLRECT and CLRRECT run SETRECT's effect with `v` 1 and 0. -/
theorem fillrectAndClrrectPaint : Obligations.FillrectAndClrrectPaint := fun x y w h _ hl hm hp =>
  ⟨execute_setrectEffects hl hm hp x y w h true, execute_setrectEffects hl hm hp x y w h false⟩

/-- Settles O19: the pseudo-instructions are defined by the words and the effect of SETRECT. -/
theorem pseudoInstructionsExpand : Obligations.PseudoInstructionsExpand := fun _ _ _ _ _ => ⟨rfl, rfl, rfl, rfl⟩

/-- A word that is known to be the word of a well-formed command decodes to that command, expanded. -/
theorem decode_of_encode_eq {cmd : Word} {i : Instr} (he : encode i = cmd) (hwf : i.wf = true) :
    decode cmd = .ok i.expand :=
  he ▸ decodeInvertsEncode i hwf

/-- Settles O20: each of the words is the word of the well-formed command beside it. -/
theorem sampleWordsDecode : Obligations.SampleWordsDecode :=
  ⟨decode_of_encode_eq (i := .clear) (by decide) rfl, decode_of_encode_eq (i := .setpx 5 10 true) (by decide) rfl,
    decode_of_encode_eq (i := .setpx (-1) 0 true) (by decide) rfl,
    decode_of_encode_eq (i := .getpx 5 10) (by decide) rfl,
    decode_of_encode_eq (i := .setrect 0 0 8 8 true) (by decide) rfl,
    decode_of_encode_eq (i := .chkrect 0 0 8 8 4) (by decide) rfl,
    decode_of_encode_eq (i := .chkrect 0 0 0 0 (-1)) (by decide) rfl,
    decode_of_encode_eq (i := .invert true) (by decide) rfl, decode_of_encode_eq (i := .flush) (by decide) rfl⟩

end Sys2Proof.Machine
end

section
/-! SUPPORT. The family `40_pixel`: the pixel commands in `READY`, the bit GETPX answers with, clamping, and the frame
of the commands that run no effect but a store. -/

namespace Sys2Proof.Machine

/-! ### The pixel commands in `READY` (R80, R85) -/

/-- SETPX in `READY` stores one pixel write and answers `OK`. -/
theorem exec_setpx_ready {s : State} (hp : s.phase = .ready) (x y : Int) (v : Bool) :
    exec (.setpx x y v) s = .next { s with
      fb := writePixel s.cfg (cx s.cfg x) (cy s.cfg y) v s.fb, resp := some (responseByte .ok false) } :=
  execute_store hp _ false

/-- GETPX in `READY` answers `OK` with the clamped pixel, and that is all. -/
theorem exec_getpx_ready {s : State} (hp : s.phase = .ready) (x y : Int) :
    exec (.getpx x y) s = .next { s with
      resp := some (responseByte .ok (pixel s.cfg s.fb (cx s.cfg x) (cy s.cfg y))) } :=
  execute_ready hp [] _

/-- With status `OK` the response byte is the pixel's bit alone (R140). -/
theorem responseByte_ok (pix : Bool) : responseByte .ok pix = if pix then 0x01#8 else 0x00#8 := by
  cases pix <;> rfl

/-- A bit of a byte, brought down to bit 0 and masked, as a number (R85). -/
theorem shiftRight_and_one (b : Byte) (k : Nat) : (b >>> k) &&& 1#8 = if b.getLsbD k then 0x01#8 else 0x00#8 := by
  rw [BitVec.and_one_eq_setWidth_ofBool_getLsbD, BitVec.getLsbD_ushiftRight, Nat.add_zero]
  cases b.getLsbD k <;> rfl

/-- Settles O43: the response byte of `OK` is the bit that the shift and the mask leave. -/
theorem getpxAnswersPixel : Obligations.GetpxAnswersPixel := by
  intro x y s hp
  rw [exec_getpx_ready hp, responseByte_ok, shiftRight_and_one, pixel, bitIndex_eq]
  rfl

/-- Settles O40: the page RAM is that of one pixel write, whose bit is R80's `or` or `and` by the definition of
`setBit`. -/
theorem setpxWritesClampedPixel : Obligations.SetpxWritesClampedPixel := by
  intro x y v s _ hm hp i b
  have written (a : Nat) : (writePixel s.cfg (cx s.cfg x) (cy s.cfg y) v s.fb).read a =
      if a = i then setBit (s.fb.read i) b v else s.fb.read a := by
    rw [read_writePixel s.cfg hm, bitIndex_eq]
    rfl
  have own := (written i).trans (if_pos rfl)
  refine ⟨_, exec_setpx_ready hp x y v, ?_, ?_, fun a ha => (written a).trans (if_neg ha)⟩
  · rintro rfl
    exact own
  · rintro rfl
    exact own

/-- Settles O44: the pixel written reads as `v`, and a pixel that clamps to another place reads as before. -/
theorem pixelRoundTrip : Obligations.PixelRoundTrip := by
  intro x y v s t hl hm hp ht
  rw [exec_setpx_ready hp] at ht
  cases ht
  have read (x' y' : Int) :=
    pixel_writePixel hm (cx_lt hl x) (cx_lt hl x') v (py := cy s.cfg y) (qy := cy s.cfg y')
  refine ⟨⟨_, exec_getpx_ready (by exact hp) x y, ?_⟩, fun x' y' other =>
    ⟨_, _, exec_getpx_ready hp x' y', exec_getpx_ready (by exact hp) x' y', ?_⟩⟩
  · simp only [read, and_self, if_true, responseByte_ok]
  · rw [ne_eq, Prod.mk.injEq] at other
    simp only [read, if_neg other]

/-! ### Clamping (R81) -/

/-- A clamped column is on the display, so clamping it again does not move it. -/
theorem cx_cx {c : Config} (hl : legal c = true) (x : Int) : cx c (cx c x) = cx c x :=
  cx_inside (Int.natCast_nonneg _) (Int.ofNat_lt.2 (cx_lt hl x))

/-- A clamped row is on the display, so clamping it again does not move it. -/
theorem cy_cy {c : Config} (hl : legal c = true) (y : Int) : cy c (cy c y) = cy c y :=
  cy_inside (Int.natCast_nonneg _) (Int.ofNat_lt.2 (cy_lt hl y))

/-- Settles O42: the pixel commands use their operands only clamped, and clamping is idempotent. -/
theorem clampingIsPerCoordinate : Obligations.ClampingIsPerCoordinate := by
  constructor
  · intro x y v s hl
    constructor
    · simp only [exec, execSetpx, setpxEffects, cx_cx hl, cy_cy hl]
    · simp only [exec, execGetpx, getpxEffects, cx_cx hl, cy_cy hl]
  · intro c hw hh
    have column : cx c (-5) = 0 := by rw [cx, hw]; rfl
    have row : cy c 99 = 63 := by rw [cy, hh]; rfl
    rw [column, row, byteIndex, hw]
    exact ⟨rfl, rfl, rfl, rfl⟩

/-! ### The frame of the drawing commands and GETPX (R172) -/

/-- But for the response, a command leaves the state as it was or as its effects leave it, whatever the phase. -/
theorem State.perform_frame (s : State) (es : List Effect) (pix : Bool) :
    ∃ u, (u = s ∨ u = (s.runEffects es).1) ∧ s.perform es pix = { u with resp := (s.perform es pix).resp } := by
  rcases State.perform_cases s es pix with ⟨-, h⟩ | ⟨-, h⟩ | ⟨-, -, h⟩ | ⟨-, -, h⟩ <;> rw [h]
  · exact ⟨_, .inl rfl, rfl⟩
  · exact ⟨_, .inl rfl, rfl⟩
  · exact ⟨_, .inr rfl, rfl⟩
  · exact ⟨_, .inr rfl, rfl⟩

/-- A run of stores touches the page RAM, and nothing else. -/
theorem State.runEffects_stores_frame {es : List Effect} (stores : ∀ e ∈ es, ∃ m, e = .store m) (s : State) :
    (s.runEffects es).1 = { s with fb := (s.runEffects es).1.fb } := by
  refine State.runEffects_keeps (P := fun u => u = { s with fb := u.fb }) (fun e he u hu => ?_) rfl
  obtain ⟨m, rfl⟩ := stores e he
  rw [hu]
  rfl

/-- A command that is neither INVERT nor FLUSH has no effect but a store. -/
theorem exists_store_of_mem_effectsOf {i : Instr} {s : State} {e : Effect} (hinv : ∀ v, i ≠ .invert v)
    (hflush : i ≠ .flush) (he : e ∈ effectsOf i s) : ∃ m, e = .store m := by
  cases i with
  | invert v => exact absurd rfl (hinv v)
  | flush => exact absurd rfl hflush
  | getpx x y => cases he
  | _ => exact ⟨_, List.mem_singleton.1 he⟩

/-- Settles O36: a run of stores touches the page RAM, and GETPX's run is empty. -/
theorem drawingCommandsFrame : Obligations.DrawingCommandsFrame := by
  intro i s t hinv hflush ht
  obtain ⟨pix, performed, -⟩ := exec_next i s
  rw [performed] at ht
  cases ht
  obtain ⟨u, hu, framed⟩ := s.perform_frame (effectsOf i s) pix
  have stored : u = { s with fb := u.fb } := by
    rcases hu with rfl | rfl
    · rfl
    · exact State.runEffects_stores_frame (fun e => exists_store_of_mem_effectsOf hinv hflush) s
  rw [framed]
  refine ⟨by rw [stored], ?_⟩
  rintro x y rfl
  rcases hu with rfl | rfl <;> rfl

end Sys2Proof.Machine
end

section
/-! SUPPORT. The family `41_region`: SETRECT, CHKRECT and CLEAR in `READY`, by the page RAM each stores; what painting
does to a byte, and which bytes and pixels a clamped or clipped region holds. -/

namespace Sys2Proof.Machine

/-! ### The region commands in `READY` (R100, R105, R110) -/

/-- SETRECT in `READY` stores the page RAM of its paint and answers `OK`. -/
theorem exec_setrect_ready {s : State} (hp : s.phase = .ready) (x y w h : Int) (v : Bool) :
    exec (.setrect x y w h v) s = .next { s with
      fb := paintAll s.cfg (setrectPaint s.cfg x y w h v) s.fb, resp := some 0x00#8 } :=
  execute_store hp _ false

/-- CHKRECT in `READY` stores the page RAM of its paint and answers `OK`. -/
theorem exec_chkrect_ready {s : State} (hp : s.phase = .ready) (x y w h cell : Int) :
    exec (.chkrect x y w h cell) s = .next { s with
      fb := paintAll s.cfg (chkrectPaint s.cfg x y w h cell) s.fb, resp := some 0x00#8 } :=
  execute_store hp _ false

/-- CLEAR in `READY` stores the page RAM with its bytes zeroed and answers `OK`. -/
theorem exec_clear_ready {s : State} (hp : s.phase = .ready) :
    exec .clear s = .next { s with fb := s.fb.update (nbytes s.cfg) fun _ _ => 0#8, resp := some 0x00#8 } :=
  execute_store hp _ false

/-- Settles O46: the loop leaves the page RAM that SETRECT stores. -/
theorem setrectEqualsNestedLoop : Obligations.SetrectEqualsNestedLoop := by
  intro x y w h v s hl hm hp
  rw [exec_setrect_ready hp, setrectLoop_eq_paintAll hl x y w h v hm]

/-- Settles O50: the loop leaves the page RAM that CHKRECT stores. -/
theorem chkrectEqualsNestedLoop : Obligations.ChkrectEqualsNestedLoop := by
  intro x y w h c s hl hm hp
  rw [exec_chkrect_ready hp, chkrectLoop_eq_paintAll hl x y w h c hm]

/-! ### Bytes of a painted page RAM (R22) -/

section PaintedByte
variable {c : Config} {paint : Nat → Nat → Option Bool} {m : Memory} {a : Nat}

/-- A byte of the page RAM after painting, from its eight pixels. -/
theorem read_paintAll_of_bits (ha : a < nbytes c) {b : Byte}
    (h : ∀ k, k < 8 → (paint (columnOf c a) (8 * pageOf c a + k)).getD ((m.read a).getLsbD k) = b.getLsbD k) :
    (paintAll c paint m).read a = b := by
  rw [read_paintAll, if_pos ha]
  exact BitVec.eq_of_getLsbD_eq fun k hk => (getLsbD_paintByte c paint a _ hk).trans (h k hk)

/-- A byte with no painted pixel keeps its value. -/
theorem read_paintAll_of_unpainted (h : ∀ k, k < 8 → paint (columnOf c a) (8 * pageOf c a + k) = none) :
    (paintAll c paint m).read a = m.read a := by
  rcases Nat.lt_or_ge a (nbytes c) with ha | ha
  · exact read_paintAll_of_bits ha fun k hk => by rw [h k hk, Option.getD_none]
  · rw [read_paintAll, if_neg (by omega)]

/-- Painting no pixel at all leaves the page RAM as it is. -/
theorem paintAll_of_unpainted (hm : m.wf = true) (h : ∀ px py, paint px py = none) : paintAll c paint m = m :=
  Memory.ext_read (wf_paintAll hm ..) hm fun _ => read_paintAll_of_unpainted fun _ _ => h ..

/-- The pixels of a byte of the page RAM are on the display. -/
theorem byte_on_display (hl : legal c = true) (ha : a < nbytes c) {k : Nat} (hk : k < 8) :
    columnOf c a < c.width ∧ 8 * pageOf c a + k < c.height := by
  have := pageOf_lt ha
  have := height_eq_pages hl
  exact ⟨Nat.mod_lt a (legal_width_pos hl), by omega⟩

/-- The first `WIDTH` bytes are the first page, each at its own column. -/
theorem byte_of_firstPage (hl : legal c = true) (ha : a < c.width) :
    a < nbytes c ∧ columnOf c a = a ∧ pageOf c a = 0 := by
  have := legal_height_pos hl
  have := height_eq_pages hl
  have inside : a + 0 * c.width < nbytes c := pageByte_lt ha (by omega)
  exact ⟨by omega, Nat.mod_eq_of_lt ha, Nat.div_eq_of_lt ha⟩

/-- The bytes of the first eight rows are the first page. -/
theorem columnOf_eq_self_of_row_lt {k : Nat} (h : 8 * pageOf c a + k < 8) : columnOf c a = a := by
  have hpage : pageOf c a = 0 := by omega
  have := Nat.mod_add_div a c.width
  rwa [show a / c.width = 0 from hpage, Nat.mul_zero, Nat.add_zero] at this

end PaintedByte

/-! ### SETRECT (R101, R102) -/

/-- Settles O47: an empty rectangle paints no pixel. -/
theorem setrectEmptyWritesNothing : Obligations.SetrectEmptyWritesNothing := by
  intro x y w h v s hm hp empty
  have unpainted (px py : Nat) : setrectPaint s.cfg x y w h v px py = none :=
    if_neg fun ⟨hw, hh, _⟩ => by omega
  rw [exec_setrect_ready hp, paintAll_of_unpainted hm unpainted]

/-- Every pixel of the display after SETRECT with positive `w` and `h` (R101). -/
theorem pixel_setrectPaint {c : Config} (hl : legal c = true) {x y w h : Int} (hw : 1 ≤ w) (hh : 1 ≤ h) (v : Bool)
    (m : Memory) {px py : Nat} (hx : px < c.width) (hy : py < c.height) :
    pixel c (paintAll c (setrectPaint c x y w h v) m) px py =
      if cx c x ≤ px ∧ px ≤ cx c (x + w - 1) ∧ cy c y ≤ py ∧ py ≤ cy c (y + h - 1) then v else pixel c m px py := by
  rw [pixel_paintAll hl _ _ hx hy]
  simp only [setrectPaint, hw, hh, true_and]
  split <;> rfl

/-- The clamped ends of an interval that overlaps `0 .. n - 1` clip it. -/
theorem between_clamped_iff {n q : Nat} (hq : q < n) {lo size : Int} (hlo : lo < n) (hhi : 0 < lo + size) :
    (clamp lo 0 (n - 1)).toNat ≤ q ∧ q ≤ (clamp (lo + size - 1) 0 (n - 1)).toNat ↔ lo ≤ q ∧ q < lo + size := by
  unfold clamp
  omega

/-- Past the last column or row, every coordinate clamps to the last. -/
theorem clamp_toNat_of_ge {n : Nat} (hn : 0 < n) {v : Int} (hv : n ≤ v) : (clamp v 0 (n - 1)).toNat = n - 1 := by
  unfold clamp
  omega

/-- Before the first column or row, every coordinate clamps to the first. -/
theorem clamp_toNat_of_neg (hi : Int) {v : Int} (hv : v < 0) : (clamp v 0 hi).toNat = 0 := by
  unfold clamp
  omega

/-- R101's example on a display 128 wide: the rectangle past the right edge is column 127 of the first eight rows. -/
theorem setrectPaint_pastRightEdge {c : Config} (hl : legal c = true) (hw : c.width = 128) (px py : Nat) :
    setrectPaint c 200 0 10 8 true px py = if px = 127 ∧ py < 8 then some true else none := by
  obtain ⟨-, -, hh, -⟩ := (legal_iff c).1 hl
  have column (x : Int) (hx : 128 ≤ x) : cx c x = 127 := by
    rw [cx, clamp_toNat_of_ge (by omega) (by omega), hw]
  have first : cy c 0 = 0 := cy_inside (by omega) (by omega)
  have last : cy c (0 + 8 - 1) = 7 := cy_inside (by omega) (by omega)
  rw [setrectPaint, column _ (by omega), column _ (by omega), first, last]
  exact if_congr (by omega) rfl rfl

/-- R101's example: byte 127 becomes `0xFF`, and no other byte changes. -/
theorem read_setrectPaint_pastRightEdge {c : Config} (hl : legal c = true) (hw : c.width = 128) (m : Memory) :
    (paintAll c (setrectPaint c 200 0 10 8 true) m).read 127 = 0xFF#8 ∧
      ∀ a, a ≠ 127 → (paintAll c (setrectPaint c 200 0 10 8 true) m).read a = m.read a := by
  constructor
  · obtain ⟨inside, hcolumn, hpage⟩ := byte_of_firstPage hl (a := 127) (by omega)
    refine read_paintAll_of_bits inside fun k hk => ?_
    rw [setrectPaint_pastRightEdge hl hw, if_pos (by omega)]
    exact ((by decide : ∀ k < 8, (0xFF#8).getLsbD k = true) k hk).symm
  · intro a ha
    refine read_paintAll_of_unpainted fun k _ => ?_
    rw [setrectPaint_pastRightEdge hl hw, if_neg]
    rintro ⟨hcolumn, hrow⟩
    exact ha ((columnOf_eq_self_of_row_lt hrow).symm.trans hcolumn)

/-- Settles O45: the consequences are what the clamped corners are for a rectangle on or past an edge. -/
theorem setrectClosedForm : Obligations.SetrectClosedForm := by
  intro x y w h v s hl _ hp hw hh
  have pixels {px py : Nat} (hx : px < s.cfg.width) (hy : py < s.cfg.height) :=
    pixel_setrectPaint hl (x := x) (y := y) hw hh v s.fb hx hy
  have beyond (a : Nat) (ha : nbytes s.cfg ≤ a) :
      (paintAll s.cfg (setrectPaint s.cfg x y w h v) s.fb).read a = s.fb.read a := by
    rw [read_paintAll, if_neg (by omega)]
  have hW := legal_width_pos hl
  have hH := legal_height_pos hl
  refine ⟨_, exec_setrect_ready hp .., fun _ _ => pixels, beyond, ?overlap, ?right, ?left, ?below, ?above,
    ?pastRightEdge⟩
  case overlap =>
    intro hx hxw hy hyh px py gx gy
    have columns : cx s.cfg x ≤ px ∧ px ≤ cx s.cfg (x + w - 1) ↔ _ := between_clamped_iff gx hx hxw
    have rows : cy s.cfg y ≤ py ∧ py ≤ cy s.cfg (y + h - 1) ↔ _ := between_clamped_iff gy hy hyh
    rw [pixels gx gy]
    exact if_congr (by rw [← and_assoc, columns, rows, and_assoc]) rfl rfl
  case right =>
    intro hx px py gx gy hne
    have edge : cx s.cfg x = s.cfg.width - 1 := clamp_toNat_of_ge hW hx
    rw [pixels gx gy, if_neg (by omega)]
  case left =>
    intro hx px py gx gy hne
    have edge : cx s.cfg (x + w - 1) = 0 := clamp_toNat_of_neg _ hx
    rw [pixels gx gy, if_neg (by omega)]
  case below =>
    intro hy px py gx gy hne
    have edge : cy s.cfg y = s.cfg.height - 1 := clamp_toNat_of_ge hH hy
    rw [pixels gx gy, if_neg (by omega)]
  case above =>
    intro hy px py gx gy hne
    have edge : cy s.cfg (y + h - 1) = 0 := clamp_toNat_of_neg _ hy
    rw [pixels gx gy, if_neg (by omega)]
  case pastRightEdge =>
    rintro width rfl rfl rfl rfl rfl
    exact read_setrectPaint_pastRightEdge hl width s.fb

/-! ### CHKRECT (R105-R107) -/

/-- Settles O49: the clipped region and the value of a cell are R105's by definition. -/
theorem chkrectPaintsCheckerboard : Obligations.ChkrectPaintsCheckerboard := by
  intro x y w h c s hl hm hp
  have paints : Paints s.cfg (chkrectValue x y c) (InClippedRect s.cfg x y w h)
      (paintAll s.cfg (chkrectPaint s.cfg x y w h c)) :=
    Paints.paintAll hl (fun _ _ inside => if_pos inside) fun _ _ outside => if_neg outside
  refine ⟨_, exec_chkrect_ready hp .., fun px py hx hy => ?_, paints.beyond s.fb hm⟩
  split
  next inside => exact paints.inside s.fb hm px py hx hy inside
  next outside => exact paints.outside s.fb hm px py hx hy outside

/-- R107's example on a display that holds it: of the first eight columns and rows, the pixels in the first half of
both or of neither are set. -/
theorem chkrectPaint_eightByEight {c : Config} (hw : 8 ≤ c.width) (hh : 8 ≤ c.height) (px py : Nat) :
    chkrectPaint c 0 0 8 8 4 px py = if px < 8 ∧ py < 8 then some (decide (px < 4 ↔ py < 4)) else none := by
  have low : clipLow 0 = 0 := rfl
  have right : clipHigh 0 8 c.width = 8 := min_eq_left (by omega)
  have bottom : clipHigh 0 8 c.height = 8 := min_eq_left (by omega)
  have region : (0 : Int) ≤ px ∧ (px : Int) < 8 ∧ (0 : Int) ≤ py ∧ (py : Int) < 8 ↔ px < 8 ∧ py < 8 := by omega
  rw [chkrectPaint, low, right, bottom]
  simp only [region]
  split
  · have parity : ((px : Int) / 4 + py / 4) % 2 = 0 ↔ (px < 4 ↔ py < 4) := by omega
    simp [checkerValue, cellSize, parity]
  · rfl

/-- Settles O51: the eight bytes by their bits; every other byte is in a column or row past the region. -/
theorem checkerboardExampleBytes : Obligations.CheckerboardExampleBytes := by
  intro s hl hw hp hfb
  obtain ⟨-, -, hh, -⟩ := (legal_iff s.cfg).1 hl
  refine ⟨_, exec_chkrect_ready hp .., fun a => ?_⟩
  rw [hfb]
  by_cases ha : a < 8
  · obtain ⟨inside, hcolumn, hpage⟩ := byte_of_firstPage hl (a := a) (by omega)
    refine read_paintAll_of_bits inside fun k hk => ?_
    rw [chkrectPaint_eightByEight hw hh, hcolumn, hpage, Nat.mul_zero, Nat.zero_add, if_pos ⟨ha, hk⟩, Option.getD_some]
    exact (by decide : ∀ a < 8, ∀ k < 8, decide (a < 4 ↔ k < 4) =
      (if a < 4 then 0x0F#8 else if a < 8 then 0xF0#8 else 0x00#8).getLsbD k) a ha k hk
  · rw [if_neg (by omega), if_neg ha]
    refine read_paintAll_of_unpainted fun k _ => ?_
    rw [chkrectPaint_eightByEight hw hh, if_neg]
    rintro ⟨hcolumn, hrow⟩
    exact ha (columnOf_eq_self_of_row_lt hrow ▸ hcolumn)

/-! ### CLEAR (R110, R111) -/

/-- An update depends on the bytes it writes only. -/
theorem Memory.update_congr {n : Nat} {f g : Nat → Byte → Byte} {m : Memory}
    (h : ∀ i, i < n → f i (m.read i) = g i (m.read i)) : m.update n f = m.update n g := by
  rw [Memory.update_eq, Memory.update_eq]
  congr 1
  refine List.filterMap_congr fun i hi => ?_
  simp only [updateCell, h i (List.mem_range.1 hi)]

/-- A page RAM inside its bounds, zeroed, lists nothing. -/
theorem Memory.update_zero_of_within {n : Nat} {m : Memory} (hm : m.within n = true) :
    (m.update n fun _ _ => 0#8) = [] := by
  rw [Memory.update_eq, List.append_eq_nil_iff]
  constructor
  · exact List.filterMap_eq_nil_iff.2 fun _ _ => if_pos rfl
  · refine List.filter_eq_nil_iff.2 fun cell hc => ?_
    have := Memory.within_iff.1 hm cell hc
    simpa using this

/-- Settles O52: CLEAR stores the update that zeroes every byte. -/
theorem clearZeroesPageRam : Obligations.ClearZeroesPageRam := by
  intro s hp
  refine ⟨_, exec_clear_ready hp, fun i hi => ?_, fun i hi => ?_, Memory.update_zero_of_within⟩
  · rw [Memory.read_update, if_pos hi]
  · rw [Memory.read_update, if_neg (by omega)]

/-- The rectangle `0, 0, WIDTH, HEIGHT` is the whole display. -/
theorem setrectPaint_display {c : Config} {px py : Nat} (hx : px < c.width) (hy : py < c.height) (v : Bool) :
    setrectPaint c 0 0 c.width c.height v px py = some v := by
  have columns : cx c 0 ≤ px ∧ px ≤ cx c (0 + c.width - 1) :=
    (between_clamped_iff hx (by omega) (by omega)).2 (by omega)
  have rows : cy c 0 ≤ py ∧ py ≤ cy c (0 + c.height - 1) :=
    (between_clamped_iff hy (by omega) (by omega)).2 (by omega)
  exact if_pos ⟨by omega, by omega, columns.1, columns.2, rows⟩

/-- Clearing every pixel of the display zeroes every byte of the page RAM. -/
theorem update_zero_eq_paintAll {c : Config} (hl : legal c = true) (m : Memory) :
    (m.update (nbytes c) fun _ _ => 0#8) = paintAll c (setrectPaint c 0 0 c.width c.height false) m := by
  refine Memory.update_congr fun i hi => (BitVec.eq_of_getLsbD_eq fun k hk => ?_).symm
  obtain ⟨hcolumn, hrow⟩ := byte_on_display hl hi hk
  rw [getLsbD_paintByte _ _ _ _ hk, setrectPaint_display hcolumn hrow, Option.getD_some, BitVec.getLsbD_zero]

/-- Settles O53: the two commands have the same effect, and a legal display's size fits the operands. -/
theorem clearEqualsClrrectOfDisplay : Obligations.ClearEqualsClrrectOfDisplay := by
  intro s hl
  have effects : clearEffects s = setrectEffects 0 0 s.cfg.width s.cfg.height false s := by
    rw [clearEffects, update_zero_eq_paintAll hl, setrectEffects]
  constructor
  · exact congrArg (execute · false s) effects
  · obtain ⟨-, hw, -, hh, -⟩ := (legal_iff s.cfg).1 hl
    simp only [Instr.wf, inS12, Bool.and_eq_true, decide_eq_true_eq]
    omega

end Sys2Proof.Machine
end

section
/-! SUPPORT. The family `42_display_control`: what INVERT and FLUSH offer and answer, whatever the sink's answers, and
that no command but INVERT has to do with `INV`. -/

namespace Sys2Proof.Machine

/-! ### Transfers and the response (R127, R140, R144) -/

/-- A completed command is its effects and a response, `SINK_ERROR` exactly where a transfer was refused. -/
theorem State.complete_eq (s : State) (es : List Effect) (pix : Bool) :
    s.complete es pix = { (s.runEffects es).1 with
      resp := some (if (s.runEffects es).2 = .ok then responseByte .ok pix else responseByte .sinkError false) } := by
  rcases State.complete_cases s es pix with ⟨h, completed⟩ | ⟨h, completed⟩ <;> rw [completed, h] <;> rfl

/-- A last transfer is offered whatever its answer, and the run ends with that answer. -/
theorem State.runEffects_emit (s : State) (kind : TransferKind) (bytes : List Byte) :
    s.runEffects [.emit kind bytes] = (s.emit kind bytes, s.answerAt 0) := by
  rw [← State.nextAnswer_eq]
  cases h : s.nextAnswer with
  | ok => exact State.runEffects_cons_ok (e := .emit kind bytes) h []
  | err => exact State.runEffects_cons_err (e := .emit kind bytes) h []

/-- After accepted transfers a refused one is the last that is offered (R127). -/
theorem State.runEffects_emits_err {s : State} {ts : List (TransferKind × List Byte)} {t : TransferKind × List Byte}
    (accepted : ∀ k, k < ts.length → s.answerAt k = .ok) (refused : s.answerAt ts.length = .err)
    (rest : List (TransferKind × List Byte)) :
    s.runEffects ((ts ++ t :: rest).map fun t => .emit t.1 t.2) = ({ s with
      answers := s.answers.drop (ts.length + 1)
      draws := s.draws + (ts.length + 1)
      sinkLog := s.sinkLog ++ ((ts.map fun t => .transfer t.1 t.2 .ok) ++ [.transfer t.1 t.2 .err]) }, .err) := by
  have run := State.runEffects_emits_ok accepted
  rw [List.map_append, State.runEffects_append_ok (by rw [run]), run, List.map_cons]
  have answer : ({ s with
      answers := s.answers.drop ts.length
      draws := s.draws + ts.length
      sinkLog := s.sinkLog ++ ts.map fun t => .transfer t.1 t.2 .ok } : State).nextAnswer = .err := by
    simpa [State.nextAnswer_eq, State.answerAt] using refused
  rw [State.runEffects_cons_err (e := .emit t.1 t.2) answer]
  simp [State.applyEffect, State.emit, answer, Nat.add_assoc]

/-! ### INVERT (R120, R121) -/

/-- Settles O54: `INV` is written before the transfer, whose answer decides the response alone. -/
theorem invertRecordsThenEmits : Obligations.InvertRecordsThenEmits := by
  intro v s hp
  have run : s.runEffects (invertEffects v s) =
      (({ s with inv := v } : State).emit .cmd [invertOpcode s.cfg v], s.answerAt 0) :=
    State.runEffects_emit { s with inv := v } .cmd [invertOpcode s.cfg v]
  have executed : exec (.invert v) s = _ := execute_ready hp (invertEffects v s) false
  rw [executed, State.complete_eq, run, State.emit, State.nextAnswer_eq, List.drop_one]
  rfl

/-! ### FLUSH (R125-R128) -/

/-- A FLUSH in `READY` offers its stream up to the first transfer the sink refuses, and answers `SINK_ERROR` (R127). -/
theorem exec_flush_err {s : State} (hp : s.phase = .ready) {ts rest : List (TransferKind × List Byte)}
    {t : TransferKind × List Byte} (stream : flushStream s.cfg s.fb = ts ++ t :: rest)
    (accepted : ∀ k, k < ts.length → s.answerAt k = .ok) (refused : s.answerAt ts.length = .err) :
    exec .flush s = .next { s with
      answers := s.answers.drop (ts.length + 1)
      draws := s.draws + (ts.length + 1)
      sinkLog := s.sinkLog ++ ((ts.map fun t => .transfer t.1 t.2 .ok) ++ [.transfer t.1 t.2 .err])
      resp := some (responseByte .sinkError false) } := by
  have executed : exec .flush s = _ := execute_ready hp (flushEffects s) false
  rw [executed, flushEffects_eq, stream, State.complete_eq, State.runEffects_emits_err accepted refused]
  rfl

/-- Two accepted answers, as the windows of a FLUSH ask for them. -/
theorem State.answerAt_of_lt_two {s : State} (h0 : s.answerAt 0 = .ok) (h1 : s.answerAt 1 = .ok) :
    ∀ k, k < 2 → s.answerAt k = .ok :=
  Nat.forall_lt_succ_right.2 ⟨Nat.forall_lt_succ_right.2 ⟨nofun, h0⟩, h1⟩

/-- Three accepted answers, as a whole FLUSH asks for them. -/
theorem State.answerAt_of_lt_three {s : State} (h0 : s.answerAt 0 = .ok) (h1 : s.answerAt 1 = .ok)
    (h2 : s.answerAt 2 = .ok) : ∀ k, k < 3 → s.answerAt k = .ok :=
  Nat.forall_lt_succ_right.2 ⟨State.answerAt_of_lt_two h0 h1, h2⟩

theorem length_pageBytes (c : Config) (m : Memory) : (pageBytes c m).length = nbytes c := by
  rw [pageBytes, List.length_map, List.length_range]

/-- The data of a FLUSH is the page RAM in ascending order (R42). -/
theorem getElem?_pageBytes {c : Config} {i : Nat} (hi : i < nbytes c) (m : Memory) :
    (pageBytes c m)[i]? = some (m.read i) := by
  rw [pageBytes, List.getElem?_map, List.getElem?_range hi, Option.map_some]

/-- Settles O55: the accepted stream, whose data is the page RAM byte by byte. -/
theorem flushSendsWindowsThenPageRam : Obligations.FlushSendsWindowsThenPageRam := by
  intro s hp h0 h1 h2 column page
  refine ⟨pageBytes s.cfg s.fb, exec_flush_ok hp (State.answerAt_of_lt_three h0 h1 h2), length_pageBytes _ _,
    fun i hi => getElem?_pageBytes hi _, ?_, fun hw hh => ?_⟩
  · rw [length_pageBytes]
    rfl
  · rw [length_pageBytes, nbytes, npages, hw, hh]
    rfl

/-- Settles O56: the stream is cut before the column window, the page window or the data. -/
theorem flushStopsAtRefusal : Obligations.FlushStopsAtRefusal := by
  intro s hp column page
  refine ⟨fun h0 => ?_, fun h0 h1 => ?_, fun h0 h1 h2 => ?_⟩
  · exact exec_flush_err hp (ts := []) rfl nofun h0
  · exact exec_flush_err hp (ts := [(.cmd, columnWindow s.cfg)]) rfl
      (Nat.forall_lt_succ_right.2 ⟨nofun, h0⟩) h1
  · exact exec_flush_err hp (ts := [(.cmd, columnWindow s.cfg), (.cmd, pageWindow s.cfg)]) rfl
      (State.answerAt_of_lt_two h0 h1) h2

/-- A run of transfers touches the sink's fields alone. -/
theorem State.runEffects_emits_frame {es : List Effect} (emits : ∀ e ∈ es, ∃ kind bytes, e = .emit kind bytes)
    (s : State) : (s.runEffects es).1 = { s with
      answers := (s.runEffects es).1.answers, draws := (s.runEffects es).1.draws
      sinkLog := (s.runEffects es).1.sinkLog } := by
  refine State.runEffects_keeps
    (P := fun u => u = { s with answers := u.answers, draws := u.draws, sinkLog := u.sinkLog })
    (fun e he u hu => ?_) rfl
  obtain ⟨kind, bytes, rfl⟩ := emits e he
  rw [hu]
  rfl

theorem exists_emit_of_mem_flushEffects {s : State} {e : Effect} (he : e ∈ flushEffects s) :
    ∃ kind bytes, e = .emit kind bytes := by
  rw [flushEffects_eq] at he
  obtain ⟨t, -, rfl⟩ := List.mem_map.1 he
  exact ⟨t.1, t.2, rfl⟩

/-- Settles O57: a FLUSH is transfers and a response, in every phase. -/
theorem flushLeavesBlockUnchanged : Obligations.FlushLeavesBlockUnchanged := by
  intro s t ht
  have performed : exec .flush s = .next (s.perform (flushEffects s) false) := rfl
  rw [performed] at ht
  cases ht
  obtain ⟨u, rfl | rfl, framed⟩ := s.perform_frame (flushEffects s) false
  · rw [framed]
  · rw [framed, State.runEffects_emits_frame fun e => exists_emit_of_mem_flushEffects]

/-! ### `INV` in the other commands (R122) -/

/-- An effect that does not write `INV` does the same whatever `INV` is, and keeps it. -/
theorem State.applyEffect_withInv {e : Effect} (h : ∀ v, e ≠ .setInv v) (s : State) (b : Bool) :
    ({ s with inv := b } : State).applyEffect e = { s.applyEffect e with inv := b } := by
  cases e with
  | setInv v => exact absurd rfl (h v)
  | _ => rfl

/-- The sink's answer has nothing to do with `INV`. -/
theorem State.effectAnswer_withInv (s : State) (b : Bool) (e : Effect) :
    ({ s with inv := b } : State).effectAnswer e = s.effectAnswer e := by
  cases e <;> rfl

/-- A run without a write of `INV` does the same whatever `INV` is, and ends with the same answer. -/
theorem State.runEffects_withInv {es : List Effect} (h : ∀ v, .setInv v ∉ es) (s : State) (b : Bool) :
    ({ s with inv := b } : State).runEffects es = ({ (s.runEffects es).1 with inv := b }, (s.runEffects es).2) := by
  induction es generalizing s with
  | nil => rfl
  | cons e es ih =>
    have head : ∀ v, e ≠ .setInv v := fun v he => h v (he ▸ List.mem_cons_self)
    have tail : ∀ v, .setInv v ∉ es := fun v hv => h v (List.mem_cons_of_mem _ hv)
    rw [State.runEffects_cons, State.runEffects_cons, State.effectAnswer_withInv, State.applyEffect_withInv head]
    cases s.effectAnswer e with
    | ok => exact ih tail (s.applyEffect e)
    | err => rfl

/-- The response to such a run is the same whatever `INV` is. -/
theorem State.complete_withInv {es : List Effect} (h : ∀ v, .setInv v ∉ es) (s : State) (b pix : Bool) :
    ({ s with inv := b } : State).complete es pix = { s.complete es pix with inv := b } := by
  rw [State.complete_eq, State.complete_eq, State.runEffects_withInv h]

/-- In every phase a command without a write of `INV` does the same whatever `INV` is. -/
theorem State.perform_withInv {es : List Effect} (h : ∀ v, .setInv v ∉ es) (s : State) (b pix : Bool) :
    ({ s with inv := b } : State).perform es pix = { s.perform es pix with inv := b } := by
  cases hp : s.phase with
  | reset p => simp only [State.perform, hp]
  | failed => simp only [State.perform, hp, State.raiseError, State.respond]
  | ready => simpa only [State.perform, hp] using State.complete_withInv h s b pix

/-- A command's effects and the bit it answers with are read from the state without `INV`. -/
theorem exists_exec_withInv_eq_perform (i : Instr) (s : State) (b : Bool) : ∃ pix,
    exec i s = .next (s.perform (effectsOf i s) pix) ∧
    exec i { s with inv := b } = .next (({ s with inv := b } : State).perform (effectsOf i s) pix) := by
  cases i <;> exact ⟨_, rfl, rfl⟩

/-- Settles O37: only INVERT's effects hold a write of `INV`; the data of a FLUSH is its last transfer, whatever its
answer. -/
theorem invTakesNoPart : Obligations.InvTakesNoPart := by
  constructor
  · intro i s t b hinv ht
    obtain ⟨pix, performed, performed'⟩ := exists_exec_withInv_eq_perform i s b
    have noWrite : ∀ v, .setInv v ∉ effectsOf i s := fun v he => hinv v (IsEffectOf.invert_of_setInv (.inl he))
    rw [performed] at ht
    cases ht
    rw [performed', State.perform_withInv noWrite]
  · intro s t hp h0 h1 ht
    cases h2 : s.answerAt 2 with
    | ok =>
      rw [exec_flush_ok hp (State.answerAt_of_lt_three h0 h1 h2)] at ht
      cases ht
      simp [flushStream, pageBytes]
    | err =>
      rw [exec_flush_err hp (ts := [(.cmd, columnWindow s.cfg), (.cmd, pageWindow s.cfg)]) rfl
        (State.answerAt_of_lt_two h0 h1) h2] at ht
      cases ht
      simp [pageBytes]

end Sys2Proof.Machine
end

section
/-! SUPPORT. The family `60_exceptions`: when a block goes on, what an accepted word is answered with, the fields of the
response byte, and when a command's transfers are refused. -/

namespace Sys2Proof.Machine

/-! ### The block never stops (R143, R148) -/

/-- A buildable block that a reset has started goes on: a step stops only where one of the two is missing (R8, R33). -/
theorem goesOn_of_started {s : State} (hl : legal s.cfg = true) (hs : s.started = true) : GoesOn s := by
  have hact := actionOf_nextAction s
  unfold GoesOn step
  cases ha : nextAction s with
  | unbuildable =>
    rw [ha] at hact
    exact absurd (hl.symm.trans hact) (by decide)
  | stuck =>
    rw [ha] at hact
    exact absurd (hs.symm.trans hact) (by decide)
  | command cmd => exact runCommand_next cmd s.tick.accept
  | _ => exact ⟨_, rfl⟩

/-- Settles O4: the invariant excludes both stops of a step, for its parameters are legal and a reset has been
released. -/
theorem invariantBlockNeverStops : Obligations.InvariantBlockNeverStops := fun _ hi =>
  goesOn_of_started hi.buildable hi.running

/-! ### The checks of an accepted word (R141, R142, R145) -/

/-- In `FAILED` an accepted word is answered `NOT_READY`, whatever it decodes to (R142). -/
theorem runCommand_of_failed {s : State} (hp : s.phase = .failed) (cmd : Word) :
    runCommand cmd s = .next (s.raiseError .notReady) := by
  simp [runCommand, verdictOf, hp]

/-- In `FAILED` the step that accepts a word only answers it (R142). -/
theorem step_of_offers_failed {s : State} {cmd : Word} (hu : Undisturbed s) (ho : Offers s cmd)
    (hp : s.phase = .failed) : step s = .next (s.tick.accept.raiseError .notReady) :=
  (step_of_offers hu ho (.inr hp)).trans (runCommand_of_failed (s := s.tick.accept) hp cmd)

/-- In `READY` the step that accepts a word of no row only answers it (R141). -/
theorem step_of_offers_no_hits {s : State} {cmd : Word} (hu : Undisturbed s) (ho : Offers s cmd)
    (hp : s.phase = .ready) (missed : ∀ r ∈ opcodeRows, r.hits cmd = false) :
    step s = .next (s.tick.accept.raiseError .illegalCommand) :=
  (step_of_offers hu ho (.inl hp)).trans (runCommand_of_reject (s := s.tick.accept) hp (decode_of_no_hits missed))

/-- Settles O23: an answer for each of the two errors, and the execution of a word that decodes. -/
theorem commandChecksInOrder : Obligations.CommandChecksInOrder := fun s cmd hu ho =>
  ⟨step_of_offers_failed hu ho, step_of_offers_no_hits hu ho, fun hp i => stepRunsDecodedCommand s cmd i hu ho hp⟩

/-- A word accepted outside `READY` changes no more than its acceptance, its answer and the reset input. -/
theorem AcceptedStep.result_of_not_ready {s t : State} {cmd : Word} {es : List Effect} (h : AcceptedStep s cmd es t)
    (hp : s.phase ≠ .ready) : t = { s.tick.accept with resp := t.resp, resetIn := t.resetIn } := by
  obtain rfl : es = [] := List.eq_nil_iff_forall_not_mem.2 fun e he => hp (h.effects e he).1
  exact h.result

/-- Settles O11: the answer, and then every kind of step from `FAILED`, where the reset sequence does not run. -/
theorem failedLastsUntilReset : Obligations.FailedLastsUntilReset := by
  refine ⟨fun s cmd => step_of_offers_failed, fun s t hp h => ?_⟩
  cases stepKind_of_step h with
  | held frame reset => rw [frame]; exact .inl ⟨hp, rfl, rfl, rfl, rfl⟩
  | released reset event result => rw [result]; exact .inr ⟨reset, event, rfl⟩
  | sequenced p phase result => rw [hp] at phase; cases phase
  | taken r pending ready phase result => rw [result]; exact .inl ⟨hp, rfl, rfl, rfl, rfl⟩
  | accepted cmd es step =>
    rw [step.result_of_not_ready (by rw [hp]; nofun)]
    exact .inl ⟨hp, rfl, rfl, rfl, rfl⟩

/-! ### The response byte (R140) -/

/-- Bits 7:4 of a response are its status. -/
theorem responseByte_status (st : Status) (pix : Bool) : (responseByte st pix).extractLsb' 4 4 = statusCode st := by
  cases st <;> cases pix <;> rfl

/-- Bits 3:1 of a response are zero. -/
theorem responseByte_zeros (st : Status) (pix : Bool) : (responseByte st pix).extractLsb' 1 3 = 0#3 := by
  cases st <;> cases pix <;> rfl

/-- Bit 0 of a response is the pixel. -/
theorem responseByte_pix (st : Status) (pix : Bool) : (responseByte st pix).getLsbD 0 = pix := by
  cases st <;> cases pix <;> rfl

/-- While the port is open a command gives no response away and ends in one of its own, where only `OK` carries the
pixel. -/
theorem State.perform_response {s : State} (hp : s.phase = .ready ∨ s.phase = .failed) (es : List Effect)
    (pix : Bool) :
    (s.perform es pix).taken = s.taken ∧ ∃ st bit, (s.perform es pix).resp = some (responseByte st bit) ∧
      (bit = true → st = .ok ∧ pix = true) := by
  obtain ⟨-, -, -, -, -, -, -, -, -, -, -, htaken⟩ := s.runEffects_fields es
  rcases s.perform_cases es pix with ⟨⟨p, hr⟩, -⟩ | ⟨-, failed⟩ | ⟨-, -, answered⟩ | ⟨-, -, refused⟩
  · rw [hr] at hp
    rcases hp with hp | hp <;> cases hp
  · rw [failed]
    exact ⟨rfl, .notReady, false, rfl, nofun⟩
  · rw [answered]
    exact ⟨htaken, .ok, pix, rfl, fun h => ⟨rfl, h⟩⟩
  · rw [refused]
    exact ⟨htaken, .sinkError, false, rfl, nofun⟩

/-- Settles O24: the command's response by its fields; bit 0 is set only by the pixel of GETPX. -/
theorem everyCommandAnswersOnce : Obligations.EveryCommandAnswersOnce := by
  intro i s hp
  obtain ⟨pix, performed, getpx⟩ := exec_next i s
  obtain ⟨taken, st, bit, response, carried⟩ := State.perform_response hp (effectsOf i s) pix
  have listed : responseByte st bit ∈ responseBytes := responseByte_mem st bit fun h => (carried h).1
  refine ⟨_, _, performed, response, taken, by simpa [responseBytes] using listed, responseByte_zeros st bit,
    fun one => getpx (carried ?_).2⟩
  rw [← responseByte_pix st bit, one]
  rfl

/-! ### Refused transfers (R127, R144) -/

/-- A completed command answers `SINK_ERROR` exactly where a transfer was refused (R144). -/
theorem State.complete_resp_sinkError_iff (s : State) (es : List Effect) (pix : Bool) :
    (s.complete es pix).resp = some 0x20#8 ↔ (s.runEffects es).2 = .err := by
  rcases s.complete_cases es pix with ⟨run, completed⟩ | ⟨run, completed⟩ <;> rw [completed, run]
  · refine ⟨fun h => ?_, nofun⟩
    have status := (responseByte_status .ok pix).symm.trans (congrArg (BitVec.extractLsb' 4 4) (Option.some.inj h))
    exact absurd status (by decide)
  · exact ⟨fun _ => rfl, fun _ => rfl⟩

/-- A run of transfers is refused exactly where the sink refuses one of its answers. -/
theorem State.runEffects_emits_err_iff (s : State) (ts : List (TransferKind × List Byte)) :
    (s.runEffects (ts.map fun t => .emit t.1 t.2)).2 = .err ↔ ∃ k < ts.length, s.answerAt k = .err := by
  induction ts generalizing s with
  | nil => simp [State.runEffects_nil]
  | cons t ts ih =>
    rw [List.map_cons, List.length_cons, Nat.exists_lt_succ_left, ← s.nextAnswer_eq]
    cases first : s.nextAnswer with
    | ok =>
      rw [State.runEffects_cons_ok (e := .emit t.1 t.2) first]
      simpa [State.applyEffect, State.emit_answerAt] using ih (s.emit t.1 t.2)
    | err => simp [State.runEffects_cons_err (e := .emit t.1 t.2) first]

/-- A command has a refused transfer only if it is INVERT, with its one transfer, or FLUSH, with its three. -/
theorem runEffects_effectsOf_err_iff (i : Instr) (s : State) : (s.runEffects (effectsOf i s)).2 = .err ↔
    (∃ v, i = .invert v) ∧ s.answerAt 0 = .err ∨
    i = .flush ∧ (s.answerAt 0 = .err ∨ s.answerAt 1 = .err ∨ s.answerAt 2 = .err) := by
  by_cases hinv : ∃ v, i = .invert v
  · obtain ⟨v, rfl⟩ := hinv
    have run : (s.runEffects (effectsOf (.invert v) s)).2 = s.answerAt 0 :=
      congrArg Prod.snd (State.runEffects_emit { s with inv := v } .cmd [invertOpcode s.cfg v])
    simp [run]
  · by_cases hflush : i = .flush
    · subst hflush
      have run : (s.runEffects (effectsOf .flush s)).2 = .err ↔ ∃ k < 3, s.answerAt k = .err :=
        s.runEffects_emits_err_iff (flushStream s.cfg s.fb)
      simp only [run, Nat.exists_lt_succ_left, Nat.not_lt_zero, reduceCtorEq, false_and, exists_false, or_false,
        true_and, false_or]
    · have accepted : ∀ e ∈ effectsOf i s, ∀ t : State, t.effectAnswer e = .ok := fun e he t => by
        obtain ⟨m, rfl⟩ := exists_store_of_mem_effectsOf (fun v h => hinv ⟨v, h⟩) hflush he
        rfl
      simp [State.runEffects_of_ok accepted, hinv, hflush]

/-- Settles O25: the response of the completed command, by whether one of its transfers was refused. -/
theorem sinkErrorOnlyWhenRefused : Obligations.SinkErrorOnlyWhenRefused := by
  intro i s t hp ht
  obtain ⟨pix, executed, -⟩ := exec_eq_execute i s
  rw [executed, execute_ready hp] at ht
  cases ht
  rw [State.complete_resp_sinkError_iff, runEffects_effectsOf_err_iff]

end Sys2Proof.Machine
end

section
/-! SUPPORT. The family `70_reset_and_hazards`: a command a reset cuts short (R164), the reset sequence action by action
(R160, R162), when the port gives a command away (R170), and the reset input. -/

namespace Sys2Proof.Machine

/-! ### A command cut short (R164) -/

/-- A command's single effects depend on the page RAM and the parameters only. -/
theorem singleEffects_congr {s t : State} (hc : t.cfg = s.cfg) (hf : t.fb = s.fb) (i : Instr) :
    singleEffects i t = singleEffects i s := by
  cases i <;>
    simp only [singleEffects, setpxEffects, getpxEffects, invertEffects, flushEffects, hc, hf]

/-- The single effects of a word that decodes are its command's, in `READY`. -/
theorem wordEffects_of_decode {s : State} {cmd : Word} {i : Instr} (hp : s.phase = .ready) (hd : decode cmd = .ok i) :
    wordEffects cmd s = singleEffects i s := by
  simp [wordEffects, verdictOf, hp, hd]

/-- A run of effects is the same whatever waits at the ports, and leaves that as it is. -/
theorem State.runEffects_withPorts (s : State) (es : List Effect) (agenda : List Event) (port : List Word) (busy : Bool)
    (pos : Nat) :
    State.runEffects { s with agenda := agenda, port := port, busy := busy, pos := pos } es =
      ({ (s.runEffects es).1 with agenda := agenda, port := port, busy := busy, pos := pos }, (s.runEffects es).2) := by
  induction es generalizing s with
  | nil => rfl
  | cons e es ih =>
    have sameAnswer : State.effectAnswer { s with agenda := agenda, port := port, busy := busy, pos := pos } e =
        s.effectAnswer e := by
      cases e <;> rfl
    have sameEffect : State.applyEffect { s with agenda := agenda, port := port, busy := busy, pos := pos } e =
        { s.applyEffect e with agenda := agenda, port := port, busy := busy, pos := pos } := by
      cases e <;> rfl
    rw [State.runEffects_cons, State.runEffects_cons, sameAnswer, sameEffect]
    cases s.effectAnswer e with
    | ok => exact ih (s.applyEffect e)
    | err => rfl

/-- A reset during the command at an open port: the command is accepted, and `done` of its single effects happen. -/
theorem step_resetDuring {s : State} {cmd : Word} {i : Instr} (done : Nat) (hl : legal s.cfg = true)
    (hs : s.started = true) (hr : s.resetIn = false) (hp : s.phase = .ready) (ho : Offers s cmd)
    (hd : decode cmd = .ok i) :
    step { s with agenda := [.resetDuring done] } = .next { (s.runEffects ((singleEffects i s).take done)).1 with
      agenda := [], port := s.port.tail, busy := true, pos := s.pos + 1, resetIn := true } := by
  obtain ⟨hb, hq, hport⟩ := ho
  have offered : State.offered { s with agenda := [.resetDuring done] } = some cmd :=
    (offered_iff _ cmd).2 ⟨hr, hs, hb, hq, .inl hp, hport⟩
  have abandoned : nextAction { s with agenda := [.resetDuring done] } = .abandon done cmd := by
    simp [nextAction, hl, offered]
  have effects : wordEffects cmd { s with agenda := [] } = singleEffects i s :=
    (wordEffects_of_decode (by exact hp) hd).trans (singleEffects_congr rfl rfl i)
  have cut : step { s with agenda := [.resetDuring done] } =
      .next (abandonCommand done cmd { s with agenda := [] }) := by
    rw [step, abandoned]
    rfl
  have run : (State.accept { s with agenda := [] }).runEffects ((singleEffects i s).take done) = _ :=
    s.runEffects_withPorts _ [] s.port.tail true (s.pos + 1)
  rw [cut, abandonCommand, effects, run]

/-! ### What a cut command has offered (R164) -/

/-- An effect offers one transfer or none, so no record lies between the one before it and the one after. -/
theorem State.sinkLog_eq_of_applyEffect {s : State} {e : Effect} {log : List SinkEvent} (before : s.sinkLog <+: log)
    (after : log <+: (s.applyEffect e).sinkLog) : log = s.sinkLog ∨ log = (s.applyEffect e).sinkLog := by
  have same (h : log <+: s.sinkLog) : log = s.sinkLog := h.eq_of_length_le before.length_le
  cases e with
  | emit kind bytes => exact (List.prefix_concat_iff.1 after).symm.imp_left same
  | _ => exact .inl (same after)

/-- A run of one effect is that effect, whatever the answer. -/
theorem State.runEffects_singleton (s : State) (e : Effect) : (s.runEffects [e]).1 = s.applyEffect e := by
  rw [State.runEffects_cons]
  split <;> rfl

/-- Every record between those before and after a run is that of the run cut somewhere. -/
theorem State.exists_take_sinkLog_eq {s : State} {es : List Effect} {log : List SinkEvent} (before : s.sinkLog <+: log)
    (after : log <+: (s.runEffects es).1.sinkLog) : ∃ done, (s.runEffects (es.take done)).1.sinkLog = log := by
  induction es generalizing s with
  | nil => exact ⟨0, before.eq_of_length_le after.length_le⟩
  | cons e es ih =>
    have atFirst (within : log <+: (s.applyEffect e).sinkLog) :
        ∃ done, (s.runEffects ((e :: es).take done)).1.sinkLog = log := by
      rcases State.sinkLog_eq_of_applyEffect before within with rfl | rfl
      · exact ⟨0, rfl⟩
      · exact ⟨1, congrArg State.sinkLog (s.runEffects_singleton e)⟩
    cases answer : s.effectAnswer e with
    | err =>
      rw [State.runEffects_cons_err answer] at after
      exact atFirst after
    | ok =>
      rw [State.runEffects_cons_ok answer] at after
      obtain ⟨rest, grown⟩ := (s.applyEffect e).runEffects_sinkLog es
      rcases List.prefix_or_prefix_of_prefix after ⟨rest, grown.symm⟩ with within | beyond
      · exact atFirst within
      · obtain ⟨done, cut⟩ := ih beyond after
        refine ⟨done + 1, ?_⟩
        rw [List.take_succ_cons, State.runEffects_cons_ok answer]
        exact cut

/-- A run cut somewhere has offered the first part of what the whole run offers. -/
theorem State.runEffects_take_sinkLog_prefix (s : State) (es : List Effect) (done : Nat) :
    (s.runEffects (es.take done)).1.sinkLog <+: (s.runEffects es).1.sinkLog := by
  have cut : es.take done ++ es.drop done = es := List.take_append_drop done es
  cases answer : (s.runEffects (es.take done)).2 with
  | ok =>
    obtain ⟨rest, grown⟩ := (s.runEffects (es.take done)).1.runEffects_sinkLog (es.drop done)
    rw [← cut, State.runEffects_append_ok answer, cut]
    exact ⟨rest, grown.symm⟩
  | err =>
    rw [← cut, State.runEffects_append_err answer, cut]

/-- Page RAM writes offer nothing. -/
theorem Writes.runEffects_sinkLog {s : State} {es : List Effect} {f : Memory → Memory} (h : Writes s.cfg es f) :
    (s.runEffects es).1.sinkLog = s.sinkLog := by
  rw [h s rfl]

/-- A command offers the same whether its page RAM writes happen one by one or at once. -/
theorem runEffects_singleEffects_sinkLog (i : Instr) (s : State) :
    (s.runEffects (singleEffects i s)).1.sinkLog = (s.runEffects (effectsOf i s)).1.sinkLog := by
  cases i with
  | clear => exact (writes_clear s.cfg (nbytes s.cfg)).runEffects_sinkLog
  | setrect x y w h v => exact (writes_setrect s.cfg x y w h v).runEffects_sinkLog
  | chkrect x y w h c => exact (writes_chkrect s.cfg x y w h c).runEffects_sinkLog
  | fillrect x y w h => exact (writes_setrect s.cfg x y w h true).runEffects_sinkLog
  | clrrect x y w h => exact (writes_setrect s.cfg x y w h false).runEffects_sinkLog
  | setpx x y v => rfl
  | getpx x y => rfl
  | invert v => rfl
  | flush => rfl

/-- In `READY` a command offers what its effects offer. -/
theorem exec_sinkLog {i : Instr} {s u : State} (hp : s.phase = .ready) (hu : exec i s = .next u) :
    u.sinkLog = (s.runEffects (effectsOf i s)).1.sinkLog := by
  obtain ⟨pix, performed, -⟩ := exec_next i s
  obtain ⟨r, -, ran⟩ := State.perform_ready hp (effectsOf i s) (pix := pix)
  rw [performed, ran] at hu
  cases hu
  rfl

/-- Settles O29: the cut run's record is the first part of the whole run's, and every record in between is that of a
cut. -/
theorem abandonedCommandLeavesPrefix : Obligations.AbandonedCommandLeavesPrefix := by
  intro s u cmd i hl hs hr hp ho hd hu
  have stepped (done : Nat) := step_resetDuring done hl hs hr hp ho hd
  have whole : u.sinkLog = (s.runEffects (singleEffects i s)).1.sinkLog :=
    (exec_sinkLog hp hu).trans (runEffects_singleEffects_sinkLog i s).symm
  obtain ⟨-, hq, -⟩ := ho
  constructor
  · intro done
    obtain ⟨l, grown⟩ := s.runEffects_sinkLog ((singleEffects i s).take done)
    obtain ⟨l', remaining⟩ := s.runEffects_take_sinkLog_prefix (singleEffects i s) done
    obtain ⟨-, -, -, -, hresp, -, -, -, -, -, -, htaken⟩ := s.runEffects_fields ((singleEffects i s).take done)
    exact ⟨_, l, l', stepped done, hresp.trans hq, htaken, rfl, rfl, grown, whole.trans remaining.symm⟩
  · intro l l' h
    obtain ⟨done, cut⟩ := State.exists_take_sinkLog_eq (es := singleEffects i s) (log := s.sinkLog ++ l) ⟨l, rfl⟩
      ⟨l', by rw [← whole, h]⟩
    exact ⟨done, _, stepped done, cut⟩

/-! ### What a cut command has written (R100, R105, R110, R120) -/

/-- No write at all. -/
theorem Writes.nil (c : Config) : Writes c [] fun m => m := fun _ _ => rfl

/-- The single write of a whole page RAM. -/
theorem Writes.store (c : Config) (m : Memory) : Writes c [.store m] fun _ => m := fun _ _ => rfl

/-- Pixel writes along a list are the fold over it. -/
theorem Writes.pixels {α : Type} (c : Config) (px py : α → Nat) (v : α → Bool) (ps : List α) :
    Writes c (ps.map fun p => .writePixel (px p) (py p) (v p))
      fun m => ps.foldl (fun m p => writePixel c (px p) (py p) (v p) m) m := by
  induction ps with
  | nil => exact Writes.nil c
  | cons p ps ih => exact (Writes.pixel c (px p) (py p) (v p)).append ih

/-- A cut command that has done nothing but page RAM writes leaves what they make. -/
theorem step_resetDuring_writes {s : State} {cmd : Word} {i : Instr} {done : Nat} {es : List Effect}
    {f : Memory → Memory} (hl : legal s.cfg = true) (hs : s.started = true) (hr : s.resetIn = false)
    (hp : s.phase = .ready) (ho : Offers s cmd) (hd : decode cmd = .ok i) (hw : Writes s.cfg es f)
    (cut : (singleEffects i s).take done = es) :
    step { s with agenda := [.resetDuring done] } = .next { s with
      agenda := [], port := s.port.tail, busy := true, pos := s.pos + 1, resetIn := true, fb := f s.fb } := by
  rw [step_resetDuring done hl hs hr hp ho hd, cut, hw s rfl]

/-- SETRECT's pixel writes as those along the list of its coordinates, row after row (R100). -/
theorem setrectWrites_eq_map (c : Config) (x y w h : Int) (v : Bool) :
    setrectWrites c x y w h v = ((List.range h.toNat).flatMap fun (b : Nat) =>
      (List.range w.toNat).map fun (a : Nat) => (x + a, y + b)).map fun p => .writePixel (cx c p.1) (cy c p.2) v := by
  simp only [setrectWrites, loopEffects, List.map_flatMap, List.map_map, ← List.map_eq_flatMap]
  rfl

/-- CHKRECT's pixel writes as those along the list of the distances from its clipped corner, row after row (R105). -/
theorem chkrectWrites_eq_map (c : Config) (x y w h cell : Int) :
    chkrectWrites c x y w h cell = ((List.range (clipHigh y h c.height - clipLow y).toNat).flatMap fun (b : Nat) =>
      (List.range (clipHigh x w c.width - clipLow x).toNat).map fun (a : Nat) => (a, b)).map fun p =>
        .writePixel (clipLow x + p.1).toNat (clipLow y + p.2).toNat (checkerValue (cellSize cell) p.1 p.2) := by
  simp only [chkrectWrites, loopEffects, List.map_flatMap, List.map_map, ← List.map_eq_flatMap, add_sub_cancel_left]
  rfl

/-- Settles O30: what `done` of the single effects leave, for each command that has a clause. -/
theorem abandonedCommandLeavesFirstWrites : Obligations.AbandonedCommandLeavesFirstWrites := by
  intro s cmd i done hl hm hs hr hp ho hd abandoned
  have left {es : List Effect} {f : Memory → Memory} (hw : Writes s.cfg es f)
      (cut : (singleEffects i s).take done = es) :
      step { s with agenda := [.resetDuring done] } = .next { abandoned with fb := f s.fb } :=
    step_resetDuring_writes hl hs hr hp ho hd hw cut
  refine ⟨?setpx, ?setrect, ?chkrect, ?clear, ?getpx, ?invert⟩
  case setpx =>
    rintro x y v rfl
    cases done with
    | zero => exact left (Writes.nil s.cfg) rfl
    | succ done => exact left (Writes.store s.cfg _) (congrArg (_ :: ·) List.take_nil)
  case setrect =>
    rintro x y w h v rfl pixels
    exact left
      (Writes.pixels s.cfg (fun p : Int × Int => cx s.cfg p.1) (fun p => cy s.cfg p.2) (fun _ => v) (pixels.take done))
      (by rw [singleEffects, setrectWrites_eq_map, List.map_take])
  case chkrect =>
    rintro x y w h c rfl x0 y0 size pixels
    exact left
      (Writes.pixels s.cfg (fun p : Nat × Nat => (clipLow x + p.1).toNat) (fun p => (clipLow y + p.2).toNat)
        (fun p => checkerValue (cellSize c) p.1 p.2) (pixels.take done))
      (by rw [singleEffects, chkrectWrites_eq_map, List.map_take]; rfl)
  case clear =>
    rintro rfl
    obtain ⟨-, read⟩ := foldl_write_zero hm (List.range (min done (nbytes s.cfg)))
    refine ⟨_, left (writes_clear s.cfg (min done (nbytes s.cfg))) ?_, fun a => (read a).trans (if_congr ?_ rfl rfl)⟩
    · rw [singleEffects, clearWrites, ← List.map_take, List.take_range]
    · rw [List.mem_range, lt_min_iff]
  case getpx =>
    rintro x y rfl
    exact left (Writes.nil s.cfg) List.take_nil
  case invert =>
    rintro v rfl
    constructor
    · rintro rfl
      exact left (Writes.nil s.cfg) rfl
    · rintro rfl
      exact step_resetDuring 1 hl hs hr hp ho hd

/-! ### The reset input (R160) -/

/-- While reset is asserted and the outside world still, a step only passes (R160). -/
theorem step_of_resetIn {s : State} (hl : legal s.cfg = true) (hr : s.resetIn = true)
    (ha : s.agenda.head? = none ∨ s.agenda.head? = some .run) : step s = .next s.tick := by
  have idle : ownAction s = .idle := if_pos hr
  rw [step, nextAction_of_still hl ha, idle]

/-- The assertion of reset has the step. -/
theorem step_of_assertReset {s : State} (hl : legal s.cfg = true) (ha : s.agenda.head? = some .assertReset) :
    step s = .next { s.tick with resetIn := true } := by
  have outside : nextAction s = .outside .assertReset := by simp [nextAction, hl, ha]
  rw [step, outside]
  rfl

/-- The release of an asserted reset has the step, and begins the sequence. -/
theorem step_of_releaseReset {s : State} (hl : legal s.cfg = true) (hr : s.resetIn = true)
    (ha : s.agenda.head? = some .releaseReset) : step s = .next s.tick.beginReset := by
  have outside : nextAction s = .outside .releaseReset := by simp [nextAction, hl, ha]
  have released : applyEvent .releaseReset s.tick = s.tick.beginReset := if_pos hr
  rw [step, outside, ← released]

/-- Settles O8: an event of the reset input has the step, and without one an asserted reset holds the block. -/
theorem resetInputHoldsAndReleases : Obligations.ResetInputHoldsAndReleases := fun _ hl =>
  ⟨step_of_assertReset hl, step_of_resetIn hl, step_of_releaseReset hl⟩

/-! ### The reset sequence, action by action (R160, R162) -/

/-- In an undisturbed block the reset sequence does its next action. -/
theorem step_of_sequence {s : State} {p : SeqPoint} (hu : Undisturbed s) (hp : s.phase = .reset p) :
    step s = .next (sequenceStep p s.tick) := by
  obtain ⟨hl, hs, hr, ha⟩ := hu
  have own : ownAction s = .sequence p := by simp [ownAction, hr, hs, hp]
  rw [step, nextAction_of_still hl ha, own]

section Action
variable {s : State}

theorem sequenceStep_assertPin_ok (h : s.nextAnswer = .ok) : sequenceStep .assertPin s = { s with
    phase := .reset .waitAsserted, rstOut := s.cfg.rstActiveLevel, answers := s.answers.tail, draws := s.draws + 1
    sinkLog := s.sinkLog ++ [.pin s.cfg.rstActiveLevel .ok] } := by
  simp [sequenceStep, assertPin, State.offerPin, h]

theorem sequenceStep_assertPin_err (h : s.nextAnswer = .err) : sequenceStep .assertPin s = { s with
    phase := .failed, rstOut := Config.freeLevel s.draws, answers := s.answers.tail, draws := s.draws + 1
    sinkLog := s.sinkLog ++ [.pin s.cfg.rstActiveLevel .err] } := by
  simp [sequenceStep, assertPin, State.offerPin, h]

theorem sequenceStep_deassertPin_ok (h : s.nextAnswer = .ok) : sequenceStep .deassertPin s = { s with
    phase := .reset .waitDeasserted, rstOut := !s.cfg.rstActiveLevel, answers := s.answers.tail, draws := s.draws + 1
    sinkLog := s.sinkLog ++ [.pin (!s.cfg.rstActiveLevel) .ok] } := by
  simp [sequenceStep, deassertPin, State.offerPin, h]

theorem sequenceStep_deassertPin_err (h : s.nextAnswer = .err) : sequenceStep .deassertPin s = { s with
    phase := .failed, answers := s.answers.tail, draws := s.draws + 1
    sinkLog := s.sinkLog ++ [.pin (!s.cfg.rstActiveLevel) .err] } := by
  simp [sequenceStep, deassertPin, State.offerPin, h]

theorem sequenceStep_entry_ok {k : Nat} {bytes : List Byte} (hk : s.cfg.initTable[k]? = some bytes)
    (h : s.nextAnswer = .ok) : sequenceStep (.entry k) s = { s with
      phase := .reset (.entry (k + 1)), answers := s.answers.tail, draws := s.draws + 1
      sinkLog := s.sinkLog ++ [.transfer .cmd bytes .ok] } := by
  simp [sequenceStep, offerEntry, State.emit, hk, h]

theorem sequenceStep_entry_err {k : Nat} {bytes : List Byte} (hk : s.cfg.initTable[k]? = some bytes)
    (h : s.nextAnswer = .err) : sequenceStep (.entry k) s = { s with
      phase := .failed, answers := s.answers.tail, draws := s.draws + 1
      sinkLog := s.sinkLog ++ [.transfer .cmd bytes .err] } := by
  simp [sequenceStep, offerEntry, State.emit, hk, h]

theorem sequenceStep_entry_end {k : Nat} (hk : s.cfg.initTable[k]? = none) :
    sequenceStep (.entry k) s = { s with phase := .ready } := by
  simp [sequenceStep, offerEntry, hk]

end Action

/-- Settles O10: each refused action is the undisturbed block's step. -/
theorem refusedResetActionFails : Obligations.RefusedResetActionFails := by
  intro s hu refused
  have again : s.tick.nextAnswer = .err := refused
  refine ⟨fun hp => ⟨Config.freeLevel s.draws, ?_⟩, fun hp => ?_, fun k bytes hp hk => ?_⟩
  · exact (step_of_sequence hu hp).trans (congrArg _ (sequenceStep_assertPin_err again))
  · exact (step_of_sequence hu hp).trans (congrArg _ (sequenceStep_deassertPin_err again))
  · exact (step_of_sequence hu hp).trans (congrArg _ (sequenceStep_entry_err (s := s.tick) hk again))

/-! ### The accepted reset sequence (R160, R163) -/

/-- A run begins with its first step. -/
theorem run_succ {s t : State} (h : step s = .next t) (n : Nat) :
    Host.Core.run core (n + 1) s = Host.Core.run core n t := by
  have first : core.step s = .next t := h
  simp only [Host.Core.run, first]

/-- With nothing on the agenda the passing of a step changes nothing. -/
theorem State.tick_of_still {s : State} (h : s.agenda = []) : s.tick = s := by
  rw [State.tick, h, List.tail_nil, ← h]

/-- The reset sequence of an undisturbed block stands at `p`, and the outside world stays still. -/
structure StandsAt (p : SeqPoint) (s : State) : Prop where
  undisturbed : Undisturbed s
  still       : s.agenda = []
  phase       : s.phase = .reset p

/-- What the accepted pulse leaves: the sequence before the table's first entry, the pin inactive (R160). -/
def State.pulsed (s : State) : State := { s with
  phase := .reset (.entry 0), rstOut := !s.cfg.rstActiveLevel, answers := s.answers.tail.tail, draws := s.draws + 2
  sinkLog := s.sinkLog ++ [.pin s.cfg.rstActiveLevel .ok, .pin (!s.cfg.rstActiveLevel) .ok] }

/-- The pulse uses up two answers. -/
theorem State.pulsed_answerAt (s : State) (k : Nat) : s.pulsed.answerAt k = s.answerAt (k + 2) :=
  ((s.offerPin s.cfg.rstActiveLevel).offerPin_answerAt (!s.cfg.rstActiveLevel) k).trans (s.offerPin_answerAt _ (k + 1))

section StandsAt
variable {p q : SeqPoint} {s : State}

theorem StandsAt.run (h : StandsAt p s) (n : Nat) :
    Host.Core.run core (n + 1) s = Host.Core.run core n (sequenceStep p s) := by
  have stepped := step_of_sequence h.undisturbed h.phase
  rw [State.tick_of_still h.still] at stepped
  exact run_succ stepped n

/-- An action that does not end the sequence leaves the block undisturbed. -/
theorem StandsAt.next (h : StandsAt p s) (hq : (sequenceStep p s).phase = .reset q) :
    StandsAt q (sequenceStep p s) := by
  refine ⟨?_, ?_, hq⟩ <;> rw [sequenceStep_frame]
  · exact h.undisturbed
  · exact h.still

/-- The accepted pulse: two pin writes, with a wait after each. -/
theorem StandsAt.run_pulse (h : StandsAt .assertPin s) (h0 : s.answerAt 0 = .ok) (h1 : s.answerAt 1 = .ok) :
    (∀ n, Host.Core.run core (n + 4) s = Host.Core.run core n s.pulsed) ∧ StandsAt (.entry 0) s.pulsed := by
  have asserted := sequenceStep_assertPin_ok (s.nextAnswer_eq.trans h0)
  have second : (sequenceStep .assertPin s).nextAnswer = .ok := by
    rw [State.nextAnswer_eq, asserted]
    exact (s.offerPin_answerAt s.cfg.rstActiveLevel 0).trans h1
  have deasserted := sequenceStep_deassertPin_ok
    (s := sequenceStep .waitAsserted (sequenceStep .assertPin s)) second
  have waiting : StandsAt .waitAsserted _ := h.next (by rw [asserted])
  have writing : StandsAt .deassertPin _ := waiting.next rfl
  have waiting' : StandsAt .waitDeasserted _ := writing.next (by rw [deasserted])
  have reached : sequenceStep .waitDeasserted (sequenceStep .deassertPin
      (sequenceStep .waitAsserted (sequenceStep .assertPin s))) = s.pulsed := by
    rw [deasserted, asserted]
    simp [sequenceStep, State.pulsed]
  rw [← reached]
  exact ⟨fun n => (h.run _).trans ((waiting.run _).trans ((writing.run _).trans (waiting'.run n))), waiting'.next rfl⟩

/-- The rest of the table, accepted entry by entry, and the end of the sequence (R160, R163). -/
theorem StandsAt.run_table {rest : List (List Byte)} {k : Nat} (h : StandsAt (.entry k) s)
    (hrest : s.cfg.initTable.drop k = rest) (accepted : ∀ j, j < rest.length → s.answerAt j = .ok) :
    Host.Core.run core (rest.length + 1) s = .next { s with
      phase := .ready
      answers := s.answers.drop rest.length
      draws := s.draws + rest.length
      sinkLog := s.sinkLog ++ rest.map fun e => .transfer .cmd e .ok } := by
  induction rest generalizing s k with
  | nil =>
    rw [h.run, sequenceStep_entry_end (List.getElem?_eq_none (List.drop_eq_nil_iff.1 hrest))]
    simp [Host.Core.run]
  | cons e rest ih =>
    have hk : s.cfg.initTable[k]? = some e := by
      rw [← List.head?_drop, hrest, List.head?_cons]
    have hrest' : s.cfg.initTable.drop (k + 1) = rest := by
      rw [← List.tail_drop, hrest, List.tail_cons]
    have first : s.nextAnswer = .ok := s.nextAnswer_eq.trans (accepted 0 (Nat.zero_lt_succ _))
    have offered := sequenceStep_entry_ok hk first
    have later : StandsAt (.entry (k + 1)) (sequenceStep (.entry k) s) := h.next (by rw [offered])
    have accepted' (j : Nat) (hj : j < rest.length) : (sequenceStep (.entry k) s).answerAt j = .ok := by
      rw [offered]
      exact (s.emit_answerAt .cmd e j).trans (accepted (j + 1) (Nat.succ_lt_succ hj))
    rw [offered] at later accepted'
    rw [List.length_cons, h.run, offered, ih later hrest' accepted']
    simp [Nat.add_assoc, Nat.add_comm 1]

end StandsAt

/-- Settles O9: the release, the pulse and the table, one after another. -/
theorem acceptedResetReachesReady : Obligations.AcceptedResetReachesReady := by
  intro s hl hr ha accepted
  have released := step_of_releaseReset hl hr (by rw [ha]; rfl)
  have still : s.tick.beginReset.agenda = [] := congrArg List.tail ha
  have begun : StandsAt .assertPin s.tick.beginReset := ⟨⟨hl, rfl, rfl, .inl (by rw [still]; rfl)⟩, still, rfl⟩
  obtain ⟨pulse, atTable⟩ := begun.run_pulse (accepted 0 (by omega)) (accepted 1 (by omega))
  have entries : ∀ k, k < s.cfg.initTable.length → s.tick.beginReset.pulsed.answerAt k = .ok := fun k hk =>
    (s.tick.beginReset.pulsed_answerAt k).trans (accepted (k + 2) (by omega))
  have table := atTable.run_table (rest := s.cfg.initTable) rfl entries
  refine (run_succ released _).trans ((pulse _).trans (table.trans ?_))
  simp [State.pulsed, ha, Nat.add_assoc, Nat.add_comm 2]

/-! ### The command port (R170) -/

/-- Only the host's presenting of a word touches the port, at its end, and no event the position (R27). -/
theorem applyEvent_port (e : Event) (s : State) : (applyEvent e s).pos = s.pos ∧
    ((applyEvent e s).port = s.port ∨ ∃ cmd, e = .present cmd ∧ (applyEvent e s).port = s.port ++ [cmd]) := by
  cases e with
  | present cmd => exact ⟨rfl, .inr ⟨cmd, rfl, rfl⟩⟩
  | releaseReset => cases hr : s.resetIn <;> simp [applyEvent, hr]
  | _ => exact ⟨rfl, .inl rfl⟩

/-- A step leaves the port and the position alone, adds a word the host presents, or takes the first word of an open
port. -/
theorem step_port_cases {s t : State} (h : step s = .next t) :
    (t.port = s.port ∧ t.pos = s.pos) ∨
    (∃ cmd, s.agenda.head? = some (.present cmd) ∧ t.port = s.port ++ [cmd] ∧ t.pos = s.pos) ∨
    ∃ cmd es, AcceptedStep s cmd es t := by
  rcases step_cases h with ⟨e, ha, rfl⟩ | ⟨-, rfl⟩ | ⟨p, -, rfl⟩ | ⟨r, -, rfl⟩ | ⟨done, cmd, ha, rfl⟩ | ⟨cmd, ha, hrun⟩
  · obtain ⟨hpos, hport | ⟨cmd, rfl, hport⟩⟩ := applyEvent_port e s.tick
    · exact .inl ⟨hport, hpos⟩
    · exact .inr (.inl ⟨cmd, nextAction_outside ha, hport, hpos⟩)
  · exact .inl ⟨rfl, rfl⟩
  · rw [sequenceStep_frame]
    exact .inl ⟨rfl, rfl⟩
  · exact .inl ⟨rfl, rfl⟩
  · obtain ⟨ho, hevent⟩ := nextAction_abandon ha
    exact .inr (.inr ⟨cmd, _, acceptedStep_abandonCommand ho hevent⟩)
  · exact .inr (.inr ⟨cmd, acceptedStep_of_runCommand (nextAction_command ha) hrun⟩)

/-- A phase other than `RESET` is one in which the port can be open (R24, R170). -/
theorem ready_or_failed_of_not_reset {p : Phase} (h : ∀ q, p ≠ .reset q) : p = .ready ∨ p = .failed := by
  cases p with
  | reset q => exact absurd rfl (h q)
  | ready => exact .inl rfl
  | failed => exact .inr rfl

/-- An undisturbed block with an open port accepts the command held there and answers it (R170). -/
theorem exists_step_of_offers {s : State} {cmd : Word} (hu : Undisturbed s) (ho : Offers s cmd)
    (hp : s.phase = .ready ∨ s.phase = .failed) :
    ∃ t es, step s = .next t ∧ AcceptedStep s cmd es t ∧ t.resp.isSome := by
  have stepped := step_of_offers hu ho hp
  obtain ⟨t, answered⟩ := runCommand_next cmd s.tick.accept
  obtain ⟨-, hs, hr, ha⟩ := hu
  obtain ⟨hb, hq, hport⟩ := ho
  obtain ⟨es, accepted⟩ := acceptedStep_of_runCommand ((offered_iff s cmd).2 ⟨hr, hs, hb, hq, hp, hport⟩) answered
  refine ⟨t, es, stepped.trans answered, accepted, ?_⟩
  rcases accepted.answer with ⟨-, r, -, response⟩ | ⟨-, -, done, abandoned⟩
  · rw [response]
    rfl
  · rw [abandoned] at ha
    simp at ha

/-- A run from a state whose step leads back to it stays there. -/
theorem run_of_step_self {s : State} (h : step s = .next s) (n : Nat) : Host.Core.run core n s = .next s := by
  induction n with
  | zero => rfl
  | succ n ih => exact (run_succ h n).trans ih

/-- Settles O26: every step by what it does to the port; the step of an open port; and a step that waits for the host
leads back to its own state. -/
theorem portAcceptsOnlyWhenOpen : Obligations.PortAcceptsOnlyWhenOpen := by
  refine ⟨fun s t h => ?_, fun s cmd rest hu hp hb hq hport => ?_, fun s n hu hp hq hy ha => ?_⟩
  · refine (step_port_cases h).imp_right (.imp_right ?_)
    rintro ⟨cmd, es, accepted⟩
    obtain ⟨-, hb, hq, hp, hport, hpos, -⟩ := accepted.handshake
    refine ⟨cmd, hport, hpos, fun p reset => ?_, hb, hq⟩
    rcases hp with hp | hp <;> rw [hp] at reset <;> cases reset
  · obtain ⟨t, es, stepped, accepted, answered⟩ :=
      exists_step_of_offers hu ⟨hb, hq, by rw [hport, List.head?_cons]⟩ (ready_or_failed_of_not_reset hp)
    obtain ⟨-, -, -, -, taken, -, busy⟩ := accepted.handshake
    exact ⟨t, stepped, (List.cons.inj (hport.symm.trans taken)).2.symm, busy, answered⟩
  · obtain ⟨r, pending⟩ := Option.isSome_iff_exists.1 hq
    obtain ⟨-, waits⟩ := responseHeldUntilTaken.2 s r hu hp pending
    have stepped : step s = .next s.tick := waits hy
    rw [State.tick_of_still ha] at stepped
    exact run_of_step_self stepped n

end Sys2Proof.Machine
end
